-- ==== Sys2Proof/Word.lean ====
section
/-! DEFINITION. The word types of the A429PK: the label, the command word and the two port widths. -/

namespace Sys2Proof

/-- The label word, `WORD_BITS` = 32 bits (10_state.md R21, 00_scope.md R5). -/
abbrev LabelWord := BitVec 32

/-- The command word, `CMD_BITS` = 288 bits (30_encoding.md R60, 00_scope.md R5). -/
abbrev CmdWord := BitVec 288

/-- The diagnostic status register, `DSR_BITS` = 8 bits (10_state.md R27, 00_scope.md R5). -/
abbrev DsrWord := BitVec 8

end Sys2Proof
end

