-- ==== Sys2Proof/Config.lean ====
section
/-! DEFINITION. The parameters of 00_scope.md R5: the fixed numbers, and the OPEN parameters as constants without a value. -/

namespace Sys2Proof.Config

/-- `BIT_MIN`: the lowest legal label bit number (R5, R103). -/
@[simp] abbrev bitMin : Nat := 1

/-- `BIT_MAX`: the highest legal label bit number (R5, R103). -/
@[simp] abbrev bitMax : Nat := 32

/-- `BCD_GROUP`: bits in one BCD digit group (R5, R160). -/
@[simp] abbrev bcdGroup : Nat := 4

/-- `BCD_RADIX`: the only supported radix (R5, R169). -/
@[simp] abbrev bcdRadix : Nat := 10

/-- `BITIDX_W`: width of the bit-number fields FB, LB, SB (R5, R61). -/
@[simp] abbrev bitIdxW : Nat := 6

/-- `OPND_W`: width of the integer operand words A, B, C, D (R5, R62). -/
@[simp] abbrev opndW : Nat := 64

/-- `LATENCY`, OPEN (R5, R250): cycles from accept to response. No rule reads it and neither does the model (log entry 10). -/
opaque latency : Nat

/-- The names of the excluded vocabulary: the three the source gives a value, and all others (92_eei_decisions.md D38). -/
inductive VocabName where
  | groundSpeed
  | bnrNormalOperation
  | short
  | other (n : Nat)
deriving DecidableEq, Repr

/-- The part of `VOCAB` that is OPEN (R5): an unknown integer for every other name. The block knows no constant (log entry 10). -/
opaque vocabOpen : Nat → Int

/-- `VOCAB` (R5, 92_eei_decisions.md D38): three known values, the rest open. No meaning reads it (10_state.md R33). -/
def vocab : VocabName → Int
  | .groundSpeed => 202
  | .bnrNormalOperation => 3
  | .short => 1
  | .other n => vocabOpen n

end Sys2Proof.Config
end

