-- ==== Sys2Proof/Syntax.lean ====
section
/-! DEFINITION. The commands as data (30_encoding.md R70): one constructor per row of spec/opcode_table.json. -/

namespace Sys2Proof

/-- The two values of `desiredParity` (42_parity.md R130). -/
inductive Par where
  | odd
  | even
deriving DecidableEq, Repr

/-- A rational operand as its pair of operand words, not reduced (30_encoding.md R63, R71).
A pair whose `den` is 0 denotes no rational (R67). -/
structure Ratio where
  num : Int
  den : Int
deriving DecidableEq, Repr

/-- The 23 commands (30_encoding.md R64, R70), operands in the order of R70. Bit numbers are naturals, integers are the
signed operand words (R62), rationals are pairs (R63), and `setpar` holds operand A as the integer it is (R65, R72). -/
inductive Instr where
  /-- `SETRAW value, firstBit, lastBit` (R108) -/
  | setraw (value : Int) (firstBit lastBit : Nat)
  /-- `GETRAW firstBit, lastBit` (R109) -/
  | getraw (firstBit lastBit : Nat)
  /-- `SETID value` (R120) -/
  | setid (value : Int)
  /-- `GETID` (R121) -/
  | getid
  /-- `SETSDI value` (R122) -/
  | setsdi (value : Int)
  /-- `GETSDI` (R123) -/
  | getsdi
  /-- `SETSSM value` (R124) -/
  | setssm (value : Int)
  /-- `GETSSM` (R125) -/
  | getssm
  /-- `SETPAR desiredParity` (R131): 1 is Odd, 0 is Even, any other value is illegal (R67) -/
  | setpar (desired : Int)
  /-- `GETPAR` (R132) -/
  | getpar
  /-- `SETBNR value, resolution, firstBit, lastBit, signBit` (R142) -/
  | setbnr (value resolution : Ratio) (firstBit lastBit signBit : Nat)
  /-- `GETBNR resolution, firstBit, lastBit, signBit` (R143) -/
  | getbnr (resolution : Ratio) (firstBit lastBit signBit : Nat)
  /-- `SETBCDD digit, firstBit, lastBit` (R162) -/
  | setbcdd (digit : Int) (firstBit lastBit : Nat)
  /-- `SETBCD value, radix, firstBit, lastBit` (R163) -/
  | setbcd (value radix : Int) (firstBit lastBit : Nat)
  /-- `GETBCD radix, firstBit, lastBit` (R164) -/
  | getbcd (radix : Int) (firstBit lastBit : Nat)
  /-- `SETDISC value, firstBit, lastBit` (R180) -/
  | setdisc (value : Int) (firstBit lastBit : Nat)
  /-- `GETDISC firstBit, lastBit` (R182) -/
  | getdisc (firstBit lastBit : Nat)
  /-- `SETDBIT boolValue, bit` (R181) -/
  | setdbit (boolValue : Int) (bit : Nat)
  /-- `GETDBIT bit` (R183) -/
  | getdbit (bit : Nat)
  /-- `CLR` (R190) -/
  | clr
  /-- `GETWORD` (R191) -/
  | getword
  /-- `GETDSR` (R192) -/
  | getdsr
  /-- `CLRDSR` (R193) -/
  | clrdsr
deriving DecidableEq, Repr

end Sys2Proof
end

