-- ==== Sys2Proof/WellFormed.lean ====
section
/-! DEFINITION. Which commands a command word can express: bit numbers 0 to 63 (30_encoding.md R61), operand words in the
signed 64-bit range (R62). Whether the operands are LEGAL (R67) is another question, which the meanings answer (log entry 6). -/

namespace Sys2Proof

/-- A bit number that a 6-bit field holds (R61). -/
def bitEncodable (n : Nat) : Bool := n < 2 ^ Config.bitIdxW

/-- An integer that a 64-bit operand word holds (R62). -/
def intEncodable (v : Int) : Bool := -(2 ^ (Config.opndW - 1)) ≤ v && v < 2 ^ (Config.opndW - 1)

/-- A rational whose two integers each fit an operand word (R63). -/
def Ratio.encodable (q : Ratio) : Bool := intEncodable q.num && intEncodable q.den

/-- The command is one that a command word can hold. -/
def Instr.wf : Instr → Bool
  | .setraw v f l => intEncodable v && bitEncodable f && bitEncodable l
  | .getraw f l => bitEncodable f && bitEncodable l
  | .setid v => intEncodable v
  | .getid => true
  | .setsdi v => intEncodable v
  | .getsdi => true
  | .setssm v => intEncodable v
  | .getssm => true
  | .setpar p => intEncodable p
  | .getpar => true
  | .setbnr v r f l sb => v.encodable && r.encodable && bitEncodable f && bitEncodable l && bitEncodable sb
  | .getbnr r f l sb => r.encodable && bitEncodable f && bitEncodable l && bitEncodable sb
  | .setbcdd d f l => intEncodable d && bitEncodable f && bitEncodable l
  | .setbcd v r f l => intEncodable v && intEncodable r && bitEncodable f && bitEncodable l
  | .getbcd r f l => intEncodable r && bitEncodable f && bitEncodable l
  | .setdisc v f l => intEncodable v && bitEncodable f && bitEncodable l
  | .getdisc f l => bitEncodable f && bitEncodable l
  | .setdbit v b => intEncodable v && bitEncodable b
  | .getdbit b => bitEncodable b
  | .clr => true
  | .getword => true
  | .getdsr => true
  | .clrdsr => true

end Sys2Proof
end

