-- ==== Sys2Proof/Decode.lean ====
section
/-! DEFINITION. The command format `CMD288` and its decoder and encoder (30_encoding.md R60 to R68). Positions are 0-based
bits of the 288-bit command word. -/

namespace Sys2Proof

/-- The nine fields of a command word (R60). -/
structure Fields where
  op : BitVec 8
  fb : BitVec 6
  lb : BitVec 6
  sb : BitVec 6
  rsv : BitVec 6
  a : BitVec 64
  b : BitVec 64
  c : BitVec 64
  d : BitVec 64
deriving DecidableEq, Repr

/-- The fields of a command word, each at its position of R60. -/
def splitWord (w : CmdWord) : Fields where
  op := w.extractLsb' 0 8
  fb := w.extractLsb' 8 6
  lb := w.extractLsb' 14 6
  sb := w.extractLsb' 20 6
  rsv := w.extractLsb' 26 6
  a := w.extractLsb' 32 64
  b := w.extractLsb' 96 64
  c := w.extractLsb' 160 64
  d := w.extractLsb' 224 64

/-- `cmd = D ++ C ++ B ++ A ++ header`, the header being `RSV ++ SB ++ LB ++ FB ++ OP` (R60). -/
def joinFields (x : Fields) : CmdWord :=
  x.d ++ x.c ++ x.b ++ x.a ++ (x.rsv ++ x.sb ++ x.lb ++ x.fb ++ x.op)

/-- Why a command word is illegal (R66). -/
inductive IllegalWord where
  /-- `RSV` is not 0. -/
  | reservedBits
  /-- `OP` is `0x00` or in `0x18` to `0xFF`. -/
  | undefinedOpcode
deriving DecidableEq, Repr

/-- What a command word is: one of the 23 commands, or illegal (R66, R68). -/
inductive Decoded where
  | command (i : Instr)
  | illegal (why : IllegalWord)
deriving DecidableEq, Repr

/-- The command of a set of fields: reserved bits first, then the opcode of R64, then the fields that R65 lists for it;
the other fields are ignored. -/
def decodeFields (x : Fields) : Decoded :=
  if x.rsv ≠ 0#6 then .illegal .reservedBits else
  match x.op.toNat with
  | 0x01 => .command (.setraw x.a.toInt x.fb.toNat x.lb.toNat)
  | 0x02 => .command (.getraw x.fb.toNat x.lb.toNat)
  | 0x03 => .command (.setid x.a.toInt)
  | 0x04 => .command .getid
  | 0x05 => .command (.setsdi x.a.toInt)
  | 0x06 => .command .getsdi
  | 0x07 => .command (.setssm x.a.toInt)
  | 0x08 => .command .getssm
  | 0x09 => .command (.setpar x.a.toInt)
  | 0x0A => .command .getpar
  | 0x0B => .command (.setbnr ⟨x.a.toInt, x.b.toInt⟩ ⟨x.c.toInt, x.d.toInt⟩ x.fb.toNat x.lb.toNat x.sb.toNat)
  | 0x0C => .command (.getbnr ⟨x.c.toInt, x.d.toInt⟩ x.fb.toNat x.lb.toNat x.sb.toNat)
  | 0x0D => .command (.setbcdd x.a.toInt x.fb.toNat x.lb.toNat)
  | 0x0E => .command (.setbcd x.a.toInt x.b.toInt x.fb.toNat x.lb.toNat)
  | 0x0F => .command (.getbcd x.b.toInt x.fb.toNat x.lb.toNat)
  | 0x10 => .command (.setdisc x.a.toInt x.fb.toNat x.lb.toNat)
  | 0x11 => .command (.getdisc x.fb.toNat x.lb.toNat)
  | 0x12 => .command (.setdbit x.a.toInt x.fb.toNat)
  | 0x13 => .command (.getdbit x.fb.toNat)
  | 0x14 => .command .clr
  | 0x15 => .command .getword
  | 0x16 => .command .getdsr
  | 0x17 => .command .clrdsr
  | _ => .illegal .undefinedOpcode

/-- The decoder: total on all `2^288` command words (R66, R68). The operand conditions of R67 are met by the meanings of the
three commands they concern, with the effect R67 gives them (log entry 6). -/
def decode (w : CmdWord) : Decoded := decodeFields (splitWord w)

/-- The opcode of each command (R64). -/
def opcode : Instr → BitVec 8
  | .setraw _ _ _ => 0x01#8
  | .getraw _ _ => 0x02#8
  | .setid _ => 0x03#8
  | .getid => 0x04#8
  | .setsdi _ => 0x05#8
  | .getsdi => 0x06#8
  | .setssm _ => 0x07#8
  | .getssm => 0x08#8
  | .setpar _ => 0x09#8
  | .getpar => 0x0A#8
  | .setbnr _ _ _ _ _ => 0x0B#8
  | .getbnr _ _ _ _ => 0x0C#8
  | .setbcdd _ _ _ => 0x0D#8
  | .setbcd _ _ _ _ => 0x0E#8
  | .getbcd _ _ _ => 0x0F#8
  | .setdisc _ _ _ => 0x10#8
  | .getdisc _ _ => 0x11#8
  | .setdbit _ _ => 0x12#8
  | .getdbit _ => 0x13#8
  | .clr => 0x14#8
  | .getword => 0x15#8
  | .getdsr => 0x16#8
  | .clrdsr => 0x17#8

/-- A bit-number field (R61). -/
def bitField (n : Nat) : BitVec 6 := BitVec.ofNat 6 n

/-- An integer operand word (R62). -/
def intField (v : Int) : BitVec 64 := BitVec.ofInt 64 v

/-- The canonical fields of a command with opcode `op`: every field 0 (R65). -/
def bareFields (op : BitVec 8) : Fields := ⟨op, 0#6, 0#6, 0#6, 0#6, 0#64, 0#64, 0#64, 0#64⟩

/-- The canonical fields of a command: those R65 lists for it, every other field 0. -/
def encodeFields (i : Instr) : Fields :=
  let x := bareFields (opcode i)
  match i with
  | .setraw v f l => { x with a := intField v, fb := bitField f, lb := bitField l }
  | .getraw f l => { x with fb := bitField f, lb := bitField l }
  | .setid v => { x with a := intField v }
  | .getid => x
  | .setsdi v => { x with a := intField v }
  | .getsdi => x
  | .setssm v => { x with a := intField v }
  | .getssm => x
  | .setpar p => { x with a := intField p }
  | .getpar => x
  | .setbnr v r f l sb =>
    { x with
      a := intField v.num, b := intField v.den, c := intField r.num, d := intField r.den,
      fb := bitField f, lb := bitField l, sb := bitField sb }
  | .getbnr r f l sb =>
    { x with
      c := intField r.num, d := intField r.den, fb := bitField f, lb := bitField l, sb := bitField sb }
  | .setbcdd d f l => { x with a := intField d, fb := bitField f, lb := bitField l }
  | .setbcd v r f l => { x with a := intField v, b := intField r, fb := bitField f, lb := bitField l }
  | .getbcd r f l => { x with b := intField r, fb := bitField f, lb := bitField l }
  | .setdisc v f l => { x with a := intField v, fb := bitField f, lb := bitField l }
  | .getdisc f l => { x with fb := bitField f, lb := bitField l }
  | .setdbit v n => { x with a := intField v, fb := bitField n }
  | .getdbit n => { x with fb := bitField n }
  | .clr => x
  | .getword => x
  | .getdsr => x
  | .clrdsr => x

/-- The canonical command word of a command (R65, R68). -/
def encode (i : Instr) : CmdWord := joinFields (encodeFields i)

/-- The command word whose low `nbits` bits are those of `w` and whose other bits are 0 (log entry 11). -/
def tableWord (nbits w : Nat) : CmdWord := BitVec.ofNat 288 (w % 2 ^ nbits)

/-- The command the decoder reads from a row of spec/opcode_table.json with bits `w`. The word is presented in parallel
(20_memory.md R55): there are no bytes to order. -/
def decodeTableWord (nbits w : Nat) : Option Instr :=
  match decode (tableWord nbits w) with
  | .command i => some i
  | .illegal _ => none

end Sys2Proof
end

