-- ==== Sys2Proof/Machine/State.lean ====
section
/-! DEFINITION. The state of the A429PK: the registers `raw` and `dsr` (10_state.md R20), the host's pending inputs and the
responses given (10_state.md R34, 30_encoding.md R71), as plain data. -/

namespace Sys2Proof.Machine

/-- The eight diagnostics (60_exceptions.md R200), in the order of their codes 1 to 8. -/
inductive Diag where
  /-- bad bit indices -/
  | rangeError
  /-- a value that does not fit a legal range -/
  | valueTooWideError
  /-- a legal target range that holds a 1 bit -/
  | rangeOccupiedError
  /-- BNR: the magnitude exceeds the limit; BCD: digits left over, or a negative value -/
  | valueOutOfRangeError
  /-- a digit above the capacity of its group -/
  | digitOutOfRangeError
  /-- a radix other than 10 -/
  | unsupportedRadixError
  /-- warning: the sign bit lies inside the magnitude range -/
  | signBitOverlapError
  /-- an illegal command word or an illegal operand -/
  | illegalCommandError
deriving DecidableEq, Repr

/-- The response of a command (30_encoding.md R71): result numerator and denominator, and the diagnostics in the order reported. -/
structure Response where
  rn : BitVec 128
  rd : BitVec 64
  diags : List Diag
deriving DecidableEq, Repr

/-- One thing the host presents (10_state.md R34): a command word on `cmd` with `cmd_valid` high, or a reset request on `rst`. -/
inductive HostInput where
  | command (w : CmdWord)
  | reset
deriving DecidableEq, Repr

/-- The whole state. `raw` and `dsr` are the architectural state (R20); the other fields are the model's own: the two sides of
the command port (log entries 1, 3, 4). -/
structure State where
  /-- the label register (R21) -/
  raw : LabelWord
  /-- the sticky diagnostic status register (R27) -/
  dsr : DsrWord
  /-- what the host still has to present, the next input first (00_scope.md R11, 10_state.md R26) -/
  inputs : List HostInput
  /-- the response the last step gave: `none` is `rsp_valid` low (R34, R35) -/
  rsp : Option Response
  /-- all responses given so far, oldest first: the output trace (00_scope.md R11, 10_state.md R32) -/
  responses : List Response
deriving DecidableEq, Repr

/-- A command in progress (00_scope.md R9): the two registers, and the diagnostics this command has reported so far. -/
structure InFlight where
  raw : LabelWord
  dsr : DsrWord
  diags : List Diag
deriving DecidableEq, Repr

/-- Faults of the machine: there are none. A diagnostic never stops the block (60_exceptions.md R203) and every command word
has one outcome (30_encoding.md R66), so nothing raises a fault (log entry 8; safe). -/
inductive Fault where
deriving DecidableEq, Repr

/-- Refusals of the model. -/
inductive Refusal where
  /-- Raised by an arm of `exec` whose instruction has no meaning yet, and by nothing else; safe. No arm raises it. -/
  | notModelled (mnemonic : String)
deriving DecidableEq, Repr

/-- The state right after reset (70_reset_and_hazards.md R230, 10_state.md R35): both registers 0, no response on the port.
The host has presented nothing and received nothing (log entries 1 and 3). -/
def State.reset : State where
  raw := 0x00000000#32
  dsr := 0x00#8
  inputs := []
  rsp := none
  responses := []

end Sys2Proof.Machine
end

