-- ==== Sys2Proof/Machine/Flags.lean ====
section
/-! DEFINITION. The diagnostic codes (60_exceptions.md R200) and the flags of `dsr` (10_state.md R27). -/

namespace Sys2Proof.Machine

/-- The code of a diagnostic, as `diag_code` shows it (R200, 10_state.md R34). -/
def diagCode : Diag → BitVec 4
  | .rangeError => 1#4
  | .valueTooWideError => 2#4
  | .rangeOccupiedError => 3#4
  | .valueOutOfRangeError => 4#4
  | .digitOutOfRangeError => 5#4
  | .unsupportedRadixError => 6#4
  | .signBitOverlapError => 7#4
  | .illegalCommandError => 8#4

/-- The value of `diag_code` when no pulse is on the port (R200 row 0, R230; log entry 5). -/
def idleDiagCode : BitVec 4 := 0#4

/-- The 0-based bit of `dsr` for a diagnostic: code minus 1 (R27). -/
def flagIndex (e : Diag) : Nat := (diagCode e).toNat - 1

/-- The mask of that bit (R27). -/
def flagMask (e : Diag) : DsrWord := 1#8 <<< flagIndex e

/-- `dsr[code(E) - 1] <- 1`: sets a bit and clears none (10_state.md R28). -/
def setFlag (dsr : DsrWord) (e : Diag) : DsrWord := dsr ||| flagMask e

end Sys2Proof.Machine
end

