-- ==== Sys2Proof/Machine/Operands.lean ====
section
/-! DEFINITION. The operand forms and the helper functions of the spec: label bits and ranges (00_scope.md R6), the helpers and
guards of the raw accessor (40_raw_accessor.md R100 to R105), the parity operand (42_parity.md R130), the BNR encoder
(43_bnr.md R141) and the BCD digit groups (44_bcd.md R160). -/

namespace Sys2Proof.Machine

/-- Label bit `n` (1-based) of a word: the bit of weight `2^(n-1)` (R6, 10_state.md R21). -/
def labelBit (word : LabelWord) (n : Nat) : Bool := word.getLsbD (n - 1)

/-- The width of `[f, l]`, or 0 where `f > l`: `max(l - f + 1, 0)` (R6, 43_bnr.md R150, 44_bcd.md R161). -/
def width (f l : Nat) : Nat := l + 1 - f

/-- Index of the most significant 1 bit, 0-based; -1 for 0 (R100). -/
def highestSetBit (v : Nat) : Int := if v = 0 then -1 else (Nat.log2 v : Int)

/-- The number of 1 bits among the lowest `k` bits of `v`. -/
def popCountBelow : Nat → Nat → Nat
  | 0, _ => 0
  | k + 1, v => v % 2 + popCountBelow k (v / 2)

/-- The number of 1 bits of `v` (R101). -/
def popCount (v : Nat) : Nat := popCountBelow (Nat.log2 v + 1) v

/-- The mask of a legal range, in place: `((2^w) - 1) << (f - 1)` (R102). -/
def rangeMask (f l : Nat) : LabelWord := BitVec.ofNat 32 (2 ^ width f l - 1) <<< (f - 1)

/-- The word with all bits outside `[f, l]` cleared, the others in place (R102). -/
def maskRange (word : LabelWord) (f l : Nat) : LabelWord := word &&& rangeMask f l

/-- The bounds guard: `1 ≤ f ≤ l ≤ 32` (R103). -/
abbrev boundsOK (f l : Nat) : Prop := Config.bitMin ≤ f ∧ f ≤ l ∧ l ≤ Config.bitMax

/-- The width guard: a negative integer fits no field, a natural fits when its highest set bit does (R104). -/
abbrev fits (v : Int) (w : Nat) : Prop := 0 ≤ v ∧ highestSetBit v.toNat ≤ (w : Int) - 1

/-- The occupancy guard: some bit of the legal range is 1 now (R105). It asks `raw` alone, not any history (10_state.md R24). -/
abbrev occupied (raw : LabelWord) (f l : Nat) : Prop := maskRange raw f l ≠ 0#32

/-- The unsigned integer held in a legal range, right-aligned: `(raw >> (f - 1)) & (2^w - 1)` (R107). -/
def fieldOf (raw : LabelWord) (f l : Nat) : Nat := ((raw >>> (f - 1)) &&& BitVec.ofNat 32 (2 ^ width f l - 1)).toNat

/-- The word with `v` ORed into `[f, l]`: `raw | (v << (f - 1))` (R106). -/
def orField (raw : LabelWord) (v f : Nat) : LabelWord := raw ||| (BitVec.ofNat 32 v <<< (f - 1))

/-- The parity operand: 1 is Odd, 0 is Even, any other integer is none (R130, 30_encoding.md R67). -/
def parityOf (p : Int) : Option Par := if p = 1 then some .odd else if p = 0 then some .even else none

/-- `Odd = 1`, `Even = 0` (R130). -/
def parityBit : Par → Nat
  | .odd => 1
  | .even => 0

/-- The bit written to label bit 32: the desired parity if the count of 1 bits is even, else its complement (42_parity.md R131). -/
def parityChoice (p : Par) (n : Nat) : Nat := if n % 2 = 0 then parityBit p else 1 - parityBit p

/-- `trunc(value / resolution)`, toward zero, on exact rationals: `(A/B) / (C/D) = (A*D) / (B*C)` (R140, R141; log entry 7). -/
def bnrEncode (value resolution : Ratio) : Int := (value.num * resolution.den).tdiv (value.den * resolution.num)

/-- `2^max(w,0) - 1`, the largest magnitude of the field (43_bnr.md R145, R150) and the largest digit of a group
(44_bcd.md R161). -/
def capacity (f l : Nat) : Nat := 2 ^ width f l - 1

/-- The digit groups of `[f, l]`, least significant first: group `k` is `[f + 4k, min(f + 4k + 3, l)]` (R160). -/
def bcdGroups (f l : Nat) : List (Nat × Nat) :=
  (List.range ((width f l + (Config.bcdGroup - 1)) / Config.bcdGroup)).map fun k =>
    (f + Config.bcdGroup * k, min (f + Config.bcdGroup * k + (Config.bcdGroup - 1)) l)

/-- The hexadecimal digits of a label word, the one showing label bits 32 to 29 first (20_memory.md R54). -/
def hexDigits (word : LabelWord) : List (BitVec 4) :=
  (List.range 8).map fun k => word.extractLsb' (4 * (7 - k)) 4

end Sys2Proof.Machine
end

