-- ==== Sys2Proof/Machine/Ops.lean ====
section
/-! DEFINITION. The named operations: `report` (60_exceptions.md R201), `setRaw` and `getRaw` (40_raw_accessor.md R106, R107),
the start and the response of a command (30_encoding.md R71), reset (70_reset_and_hazards.md R230, R231) and the ports
(10_state.md R34). -/

namespace Sys2Proof.Machine

/-- `report(E)`: append to the command's list, which is also the pulse on the diagnostic port, and set the `dsr` flag. Control
is not transferred (R201, R203): this is the one shared operation for every "exception" of the block. -/
def report (e : Diag) (x : InFlight) : InFlight :=
  { x with dsr := setFlag x.dsr e, diags := x.diags ++ [e] }

/-- `setRaw(v, f, l)`: bounds, width, occupancy, in that order; the first guard that fails is reported and ends the call with
`raw` unchanged; else the value is ORed in (R106). -/
def setRaw (v : Int) (f l : Nat) (x : InFlight) : InFlight :=
  if ¬ boundsOK f l then report .rangeError x
  else if ¬ fits v (width f l) then report .valueTooWideError x
  else if occupied x.raw f l then report .rangeOccupiedError x
  else { x with raw := orField x.raw v.toNat f }

/-- `getRaw(f, l)`: 0 and `RangeError` on an illegal range, else the integer held there; `raw` is never written (R107). -/
def getRaw (f l : Nat) (x : InFlight) : Nat × InFlight :=
  if ¬ boundsOK f l then (0, report .rangeError x)
  else (fieldOf x.raw f l, x)

/-- A command starts with the registers as they are and no diagnostic reported. -/
def startCommand (s : State) : InFlight := ⟨s.raw, s.dsr, []⟩

/-- A command ends: the registers take their new values and the response `(rn / rd, diags)` is given (R71). -/
def completeCommand (s : State) (x : InFlight) (rn rd : Int) : State :=
  let r : Response := ⟨BitVec.ofInt 128 rn, BitVec.ofInt 64 rd, x.diags⟩
  { s with raw := x.raw, dsr := x.dsr, rsp := some r, responses := s.responses ++ [r] }

/-- The outcome of a command whose result is the pair `rn / rd`. -/
def answerRatio (s : State) (x : InFlight) (rn rd : Int) : Host.Outcome State Fault Refusal :=
  .next (completeCommand s x rn rd)

/-- The outcome of a command with an integer result: `RN = v`, `RD = 1` (R71). -/
def answerInt (s : State) (x : InFlight) (v : Nat) : Host.Outcome State Fault Refusal :=
  answerRatio s x v 1

/-- The outcome of a command with no result: `RN = 0`, `RD = 1` (R71). -/
def answerNone (s : State) (x : InFlight) : Host.Outcome State Fault Refusal :=
  answerRatio s x 0 1

/-- A command that is one `setRaw` call. -/
def writeField (v : Int) (f l : Nat) (s : State) : Host.Outcome State Fault Refusal :=
  answerNone s (setRaw v f l (startCommand s))

/-- A command that is one `getRaw` call. -/
def readField (f l : Nat) (s : State) : Host.Outcome State Fault Refusal :=
  let got := getRaw f l (startCommand s)
  answerInt s got.2 got.1

/-- The effect of an illegal command: one `IllegalCommandError`, `raw` unchanged, result 0 (30_encoding.md R66, R67, R194). -/
def illegalCommand (s : State) : Host.Outcome State Fault Refusal :=
  answerNone s (report .illegalCommandError (startCommand s))

/-- Reset, between two commands: the reset state, no response and no diagnostic (R231). The host's list and the trace are not
the block's (log entries 1, 3). -/
def resetBlock (s : State) : State :=
  { State.reset with inputs := s.inputs, responses := s.responses }

/-- The host presents nothing: the block waits, and `rsp_valid` is low (log entry 2). -/
def idle (s : State) : State := { s with rsp := none }

/-- The host presents the command word `w` next. -/
def presentWord (s : State) (w : CmdWord) : State := { s with inputs := .command w :: s.inputs }

/-- The host has presented its next input: `rest` is what remains. -/
def takeInput (s : State) (rest : List HostInput) : State := { s with inputs := rest }

/-- `cmd_ready`: high whenever no command is executing, so in every state of this model (R34, R35; log entry 12). -/
def State.cmdReady (_ : State) : Bool := true

/-- `rsp_valid` (R34). -/
def State.rspValid (s : State) : Bool := s.rsp.isSome

/-- The pulses of the last step on `diag_valid`, each with its `diag_code`, in order (R34, R201). -/
def State.diagPulses (s : State) : List (BitVec 4) :=
  match s.rsp with
  | none => []
  | some r => r.diags.map diagCode

/-- `diag_code` between pulses, which is where every state of this model stands (R34, R200, R230; log entry 5). -/
def State.diagCodePort (_ : State) : BitVec 4 := idleDiagCode

/-- The `raw` output port (R34). -/
def State.rawPort (s : State) : LabelWord := s.raw

/-- The `dsr` output port (R34). -/
def State.dsrPort (s : State) : DsrWord := s.dsr

end Sys2Proof.Machine
end

