-- ==== Sys2Proof/Machine/Bcd.lean ====
section
/-! DEFINITION. `SETBCDD`, `SETBCD` and `GETBCD`, the decimal codec (44_bcd.md R160 to R172). -/

namespace Sys2Proof.Machine

/-- `setBcdDigit(d, f, l)`: the capacity of the range is checked first (not 9, R165), then `setRaw` (R161). -/
def setBcdDigit (d : Int) (f l : Nat) (x : InFlight) : InFlight :=
  if d < 0 ∨ (capacity f l : Int) < d then report .digitOutOfRangeError x
  else setRaw d f l x

/-- The loop of R163: one digit to each group, whatever the earlier groups did (R166), zero digits too (R167). The first
component is what is left of the value. -/
def setBcdGroups : List (Nat × Nat) → Nat → InFlight → Nat × InFlight
  | [], rem, x => (rem, x)
  | (p, h) :: groups, rem, x =>
    setBcdGroups groups (rem / Config.bcdRadix) (setBcdDigit ((rem % Config.bcdRadix : Nat) : Int) p h x)

/-- The statements of R163 in its order: radix (R169), negative value (R168), the groups, leftover digits (R166). -/
def setBcd (value radix : Int) (f l : Nat) (x : InFlight) : InFlight :=
  if radix ≠ (Config.bcdRadix : Int) then report .unsupportedRadixError x
  else if value < 0 then report .valueOutOfRangeError x
  else
    let out := setBcdGroups (bcdGroups f l) value.toNat x
    if out.1 ≠ 0 then report .valueOutOfRangeError out.2 else out.2

/-- The loop of R164: the groups from the least significant one up, each read by `getRaw` and weighted `10^k`. -/
def getBcdGroups : List (Nat × Nat) → Nat → Nat → InFlight → Nat × InFlight
  | [], _, acc, x => (acc, x)
  | (p, h) :: groups, k, acc, x =>
    let got := getRaw p h x
    getBcdGroups groups (k + 1) (acc + got.1 * Config.bcdRadix ^ k) got.2

/-- The statements of R164: radix, then the groups. -/
def getBcd (radix : Int) (f l : Nat) (x : InFlight) : Nat × InFlight :=
  if radix ≠ (Config.bcdRadix : Int) then (0, report .unsupportedRadixError x)
  else getBcdGroups (bcdGroups f l) 0 0 x

/-- `SETBCDD digit, firstBit, lastBit` (R162). -/
def execSetbcdd (digit : Int) (firstBit lastBit : Nat) (s : State) : Host.Outcome State Fault Refusal :=
  answerNone s (setBcdDigit digit firstBit lastBit (startCommand s))

/-- `SETBCD value, radix, firstBit, lastBit` (R163). -/
def execSetbcd (value radix : Int) (firstBit lastBit : Nat) (s : State) : Host.Outcome State Fault Refusal :=
  answerNone s (setBcd value radix firstBit lastBit (startCommand s))

/-- `GETBCD radix, firstBit, lastBit` (R164). -/
def execGetbcd (radix : Int) (firstBit lastBit : Nat) (s : State) : Host.Outcome State Fault Refusal :=
  let got := getBcd radix firstBit lastBit (startCommand s)
  answerInt s got.2 got.1

end Sys2Proof.Machine
end

