-- ==== Sys2Proof/Machine/Bnr.lean ====
section
/-! DEFINITION. `SETBNR` and `GETBNR`, the signed fixed-point codec (43_bnr.md R140 to R151). -/

namespace Sys2Proof.Machine

/-- The warning of R144: reported when the sign bit lies in `[f, l]`; the command goes on either way. -/
def warnOverlap (f l sb : Nat) (x : InFlight) : InFlight :=
  if f ≤ sb ∧ sb ≤ l then report .signBitOverlapError x else x

/-- The two independent writes of R142 and R148: the magnitude, then the sign. -/
def writeBnr (encoded : Int) (f l sb : Nat) (x : InFlight) : InFlight :=
  setRaw (if encoded < 0 then 1 else 0) sb sb (setRaw encoded.natAbs f l x)

/-- The statements of R142 in its order: zero resolution (R149), overlap warning (R144), range check (R145, R150), writes. -/
def setBnr (value resolution : Ratio) (f l sb : Nat) (x : InFlight) : InFlight :=
  if resolution.num = 0 then report .illegalCommandError x
  else
    let y := warnOverlap f l sb x
    let encoded := bnrEncode value resolution
    if capacity f l < encoded.natAbs then report .valueOutOfRangeError y
    else writeBnr encoded f l sb y

/-- `SETBNR value, resolution, firstBit, lastBit, signBit` (R142); a zero denominator makes it illegal before any other check
(30_encoding.md R67). -/
def execSetbnr (value resolution : Ratio) (firstBit lastBit signBit : Nat) (s : State) : Host.Outcome State Fault Refusal :=
  if value.den = 0 ∨ resolution.den = 0 then illegalCommand s
  else answerNone s (setBnr value resolution firstBit lastBit signBit (startCommand s))

/-- `GETBNR resolution, firstBit, lastBit, signBit`: `RN = (-1 if s ≠ 0 else +1) * magnitude * C`, `RD = D`, the magnitude read
before the sign (R143); a zero denominator makes it illegal (30_encoding.md R67). -/
def execGetbnr (resolution : Ratio) (firstBit lastBit signBit : Nat) (s : State) : Host.Outcome State Fault Refusal :=
  if resolution.den = 0 then illegalCommand s
  else
    let magnitude := getRaw firstBit lastBit (startCommand s)
    let sign := getRaw signBit signBit magnitude.2
    answerRatio s sign.2 ((if sign.1 ≠ 0 then -1 else 1) * (magnitude.1 : Int) * resolution.num) resolution.den

end Sys2Proof.Machine
end

