-- ==== Sys2Proof/Machine/Discrete.lean ====
section
/-! DEFINITION. The discrete commands (45_discrete.md R180 to R183): the raw accessor under names of their own (30_encoding.md R73). -/

namespace Sys2Proof.Machine

/-- `SETDISC value, firstBit, lastBit` is `setRaw(value, firstBit, lastBit)` (R180). -/
def execSetdisc (value : Int) (firstBit lastBit : Nat) (s : State) : Host.Outcome State Fault Refusal :=
  writeField value firstBit lastBit s

/-- `GETDISC firstBit, lastBit` is `getRaw(firstBit, lastBit)` (R182). -/
def execGetdisc (firstBit lastBit : Nat) (s : State) : Host.Outcome State Fault Refusal :=
  readField firstBit lastBit s

/-- `SETDBIT boolValue, bit` is `setRaw(boolValue, bit, bit)`: the integer is passed through as it is (R181). -/
def execSetdbit (boolValue : Int) (bit : Nat) (s : State) : Host.Outcome State Fault Refusal :=
  writeField boolValue bit bit s

/-- `GETDBIT bit` is `getRaw(bit, bit)` (R183). -/
def execGetdbit (bit : Nat) (s : State) : Host.Outcome State Fault Refusal := readField bit bit s

end Sys2Proof.Machine
end

