-- ==== Sys2Proof/Machine/FixedFields.lean ====
section
/-! DEFINITION. The identifier, SDI and status-matrix commands (41_fixed_fields.md R120 to R126): the raw accessor on the
fixed ranges of 20_memory.md R42. -/

namespace Sys2Proof.Machine

/-- `SETID value` is `setRaw(value, 1, 8)` (R120). -/
def execSetid (value : Int) (s : State) : Host.Outcome State Fault Refusal := writeField value 1 8 s

/-- `GETID` is `getRaw(1, 8)` (R121). -/
def execGetid (s : State) : Host.Outcome State Fault Refusal := readField 1 8 s

/-- `SETSDI value` is `setRaw(value, 9, 10)` (R122). -/
def execSetsdi (value : Int) (s : State) : Host.Outcome State Fault Refusal := writeField value 9 10 s

/-- `GETSDI` is `getRaw(9, 10)` (R123). -/
def execGetsdi (s : State) : Host.Outcome State Fault Refusal := readField 9 10 s

/-- `SETSSM value` is `setRaw(value, 30, 31)` (R124). -/
def execSetssm (value : Int) (s : State) : Host.Outcome State Fault Refusal := writeField value 30 31 s

/-- `GETSSM` is `getRaw(30, 31)` (R125). -/
def execGetssm (s : State) : Host.Outcome State Fault Refusal := readField 30 31 s

end Sys2Proof.Machine
end

