-- ==== Sys2Proof/Machine/Parity.lean ====
section
/-! DEFINITION. `SETPAR` and `GETPAR` (42_parity.md R130 to R134). -/

namespace Sys2Proof.Machine

/-- The parity write: the bit is chosen from the count over all 32 bits of the current word, label bit 32 included, and goes
through `setRaw(b, 32, 32)`, which refuses it when bit 32 is already 1 (R131, R134). -/
def setPar (p : Par) (x : InFlight) : InFlight :=
  setRaw (parityChoice p (popCount x.raw.toNat)) 32 32 x

/-- `SETPAR desiredParity`; an operand other than 0 and 1 makes the command illegal (R130, R131, 30_encoding.md R67). -/
def execSetpar (desired : Int) (s : State) : Host.Outcome State Fault Refusal :=
  match parityOf desired with
  | none => illegalCommand s
  | some p => answerNone s (setPar p (startCommand s))

/-- `GETPAR` is `getRaw(32, 32)`: the stored bit, not recomputed (R132). -/
def execGetpar (s : State) : Host.Outcome State Fault Refusal := readField 32 32 s

end Sys2Proof.Machine
end

