-- ==== Sys2Proof/Machine/RawAccessor.lean ====
section
/-! DEFINITION. `SETRAW` and `GETRAW` (40_raw_accessor.md R108, R109). -/

namespace Sys2Proof.Machine

/-- `SETRAW value, firstBit, lastBit` is `setRaw(value, firstBit, lastBit)` (R108). -/
def execSetraw (value : Int) (firstBit lastBit : Nat) (s : State) : Host.Outcome State Fault Refusal :=
  writeField value firstBit lastBit s

/-- `GETRAW firstBit, lastBit`: the result is `getRaw(firstBit, lastBit)` (R109). -/
def execGetraw (firstBit lastBit : Nat) (s : State) : Host.Outcome State Fault Refusal :=
  readField firstBit lastBit s

end Sys2Proof.Machine
end

