-- ==== Sys2Proof/Machine/System.lean ====
section
/-! DEFINITION. The housekeeping commands `CLR`, `GETWORD`, `GETDSR`, `CLRDSR` (46_system.md R190 to R193) and the illegal
command (R194). -/

namespace Sys2Proof.Machine

/-- `CLR`: `raw <- 0`; `dsr` is not changed (R190). -/
def execClr (s : State) : Host.Outcome State Fault Refusal :=
  answerNone s { startCommand s with raw := 0#32 }

/-- `GETWORD`: the result is `raw` (R191). -/
def execGetword (s : State) : Host.Outcome State Fault Refusal :=
  answerInt s (startCommand s) s.raw.toNat

/-- `GETDSR`: the result is `dsr`; reading does not clear (R192). -/
def execGetdsr (s : State) : Host.Outcome State Fault Refusal :=
  answerInt s (startCommand s) s.dsr.toNat

/-- `CLRDSR`: `dsr <- 0`; `raw` is not changed (R193). -/
def execClrdsr (s : State) : Host.Outcome State Fault Refusal :=
  answerNone s { startCommand s with dsr := 0#8 }

/-- The illegal command word, whatever makes it illegal (R194). -/
def execIllegal (_ : IllegalWord) (s : State) : Host.Outcome State Fault Refusal := illegalCommand s

end Sys2Proof.Machine
end

