-- ==== Sys2Proof/Machine/Dispatch.lean ====
section
/-! DEFINITION. The meaning of each command (30_encoding.md R64): one arm per constructor. -/

namespace Sys2Proof.Machine

def exec (i : Instr) (s : State) : Host.Outcome State Fault Refusal :=
  match i with
  | .setraw value firstBit lastBit => Sys2Proof.Machine.execSetraw value firstBit lastBit s
  | .getraw firstBit lastBit => Sys2Proof.Machine.execGetraw firstBit lastBit s
  | .setid value => Sys2Proof.Machine.execSetid value s
  | .getid => Sys2Proof.Machine.execGetid s
  | .setsdi value => Sys2Proof.Machine.execSetsdi value s
  | .getsdi => Sys2Proof.Machine.execGetsdi s
  | .setssm value => Sys2Proof.Machine.execSetssm value s
  | .getssm => Sys2Proof.Machine.execGetssm s
  | .setpar desired => Sys2Proof.Machine.execSetpar desired s
  | .getpar => Sys2Proof.Machine.execGetpar s
  | .setbnr value resolution firstBit lastBit signBit => Sys2Proof.Machine.execSetbnr value resolution firstBit lastBit signBit s
  | .getbnr resolution firstBit lastBit signBit => Sys2Proof.Machine.execGetbnr resolution firstBit lastBit signBit s
  | .setbcdd digit firstBit lastBit => Sys2Proof.Machine.execSetbcdd digit firstBit lastBit s
  | .setbcd value radix firstBit lastBit => Sys2Proof.Machine.execSetbcd value radix firstBit lastBit s
  | .getbcd radix firstBit lastBit => Sys2Proof.Machine.execGetbcd radix firstBit lastBit s
  | .setdisc value firstBit lastBit => Sys2Proof.Machine.execSetdisc value firstBit lastBit s
  | .getdisc firstBit lastBit => Sys2Proof.Machine.execGetdisc firstBit lastBit s
  | .setdbit boolValue bit => Sys2Proof.Machine.execSetdbit boolValue bit s
  | .getdbit bit => Sys2Proof.Machine.execGetdbit bit s
  | .clr => Sys2Proof.Machine.execClr s
  | .getword => Sys2Proof.Machine.execGetword s
  | .getdsr => Sys2Proof.Machine.execGetdsr s
  | .clrdsr => Sys2Proof.Machine.execClrdsr s

end Sys2Proof.Machine
end

