-- ==== Sys2Proof/Machine/Execute.lean ====
section
/-! DEFINITION. What one host input does (00_scope.md R11, 10_state.md R34): a command word is decoded and executed, a reset
request resets the block. -/

namespace Sys2Proof.Machine

/-- The block accepts a command word: decoded, it runs; an illegal word runs as the illegal command (30_encoding.md R66, R68). -/
def runWord (w : CmdWord) (s : State) : Host.Outcome State Fault Refusal :=
  match decode w with
  | .command i => exec i s
  | .illegal why => execIllegal why s

/-- The effect of one host input on the state from which it has been taken. -/
def runInput (h : HostInput) (s : State) : Host.Outcome State Fault Refusal :=
  match h with
  | .command w => runWord w s
  | .reset => .next (resetBlock s)

/-- One step: the next input of the host takes all its effects; with none left the block waits (log entries 1, 2). -/
def runNext (s : State) : Host.Outcome State Fault Refusal :=
  match s.inputs with
  | [] => .next (idle s)
  | h :: rest => runInput h (takeInput s rest)

end Sys2Proof.Machine
end

