-- ==== Sys2Proof/Machine/Step.lean ====
section
/-! DEFINITION. The step of the machine, and where a step takes its next command from. -/

namespace Sys2Proof.Machine

/-- One step: one command (or one reset request) of the host, whole (00_scope.md R11, 20_memory.md R45). -/
def step (s : State) : Host.Outcome State Fault Refusal := runNext s

/-- `s` with the command word of `tableWord` as the next input of the host (log entry 11). -/
def State.withFetchWord (s : State) (nbits w : Nat) : State := presentWord s (tableWord nbits w)

end Sys2Proof.Machine
end

