-- ==== Sys2Proof/Safety.lean ====
section
/-! DEFINITION. The words claims are stated in: what a range holds, what one guarded write or read does to the label, how a
command ends, what a safe (as-intended) run is (00_scope.md R12), and the invariant of the machine. Each is written from the spec's
prose and label bits, not from the operations of Machine/. -/

namespace Sys2Proof.Machine

/-- `[f, l]` is a legal range: `1 ≤ f ≤ l ≤ 32` (40_raw_accessor.md R103). -/
abbrev legalRange (f l : Nat) : Prop := 1 ≤ f ∧ f ≤ l ∧ l ≤ 32

/-- Every label bit of `[f, l]` is 0. -/
def bitsFree (raw : LabelWord) (f l : Nat) : Prop := ∀ n, f ≤ n → n ≤ l → labelBit raw n = false

/-- `[f, l]` holds `v`: bit `i` of `v` stands in label bit `f + i` (20_memory.md R41). -/
def fieldHolds (raw : LabelWord) (f l v : Nat) : Prop := ∀ n, f ≤ n → n ≤ l → labelBit raw n = v.testBit (n - f)

/-- Every label bit outside `[f, l]` is the same in both words. -/
def sameOutside (raw raw' : LabelWord) (f l : Nat) : Prop :=
  ∀ n, 1 ≤ n → n ≤ 32 → ¬ (f ≤ n ∧ n ≤ l) → labelBit raw' n = labelBit raw n

/-- Every label bit of `[f, l]` is the same in both words. -/
def sameInside (raw raw' : LabelWord) (f l : Nat) : Prop := ∀ n, f ≤ n → n ≤ l → labelBit raw' n = labelBit raw n

/-- What one guarded write of `v` to `[f, l]` does to the label, and what it reports: bounds, then width, then occupancy, then
the write (40_raw_accessor.md R106). -/
def writeEffect (raw : LabelWord) (v : Int) (f l : Nat) (raw' : LabelWord) (ds : List Diag) : Prop :=
  (¬ legalRange f l → raw' = raw ∧ ds = [.rangeError]) ∧
  (legalRange f l → ¬ (0 ≤ v ∧ v < 2 ^ (l + 1 - f)) → raw' = raw ∧ ds = [.valueTooWideError]) ∧
  (legalRange f l → 0 ≤ v → v < 2 ^ (l + 1 - f) → ¬ bitsFree raw f l → raw' = raw ∧ ds = [.rangeOccupiedError]) ∧
  (legalRange f l → 0 ≤ v → v < 2 ^ (l + 1 - f) → bitsFree raw f l →
    fieldHolds raw' f l v.toNat ∧ sameOutside raw raw' f l ∧ ds = [])

/-- What one read of `[f, l]` answers, and what it reports (40_raw_accessor.md R107). -/
def readEffect (raw : LabelWord) (f l v : Nat) (ds : List Diag) : Prop :=
  (¬ legalRange f l → v = 0 ∧ ds = [.rangeError]) ∧
  (legalRange f l → v < 2 ^ (l + 1 - f) ∧ fieldHolds raw f l v ∧ ds = [])

/-- What becomes of ONE digit group `[p, h]` of a BCD write, seen inside the group: capacity, then bounds, then occupancy, then
the digit (44_bcd.md R161, R163). -/
def digitEffect (raw : LabelWord) (d p h : Nat) (raw' : LabelWord) (ds : List Diag) : Prop :=
  (2 ^ (h + 1 - p) ≤ d → sameInside raw raw' p h ∧ ds = [.digitOutOfRangeError]) ∧
  (d < 2 ^ (h + 1 - p) → ¬ legalRange p h → sameInside raw raw' p h ∧ ds = [.rangeError]) ∧
  (d < 2 ^ (h + 1 - p) → legalRange p h → ¬ bitsFree raw p h → sameInside raw raw' p h ∧ ds = [.rangeOccupiedError]) ∧
  (d < 2 ^ (h + 1 - p) → legalRange p h → bitsFree raw p h → fieldHolds raw' p h d ∧ ds = [])

/-- The bit of `dsr` for each diagnostic, as the table of 10_state.md R27 prints it. -/
def dsrBitOf : Diag → Nat
  | .rangeError => 0
  | .valueTooWideError => 1
  | .rangeOccupiedError => 2
  | .valueOutOfRangeError => 3
  | .digitOutOfRangeError => 4
  | .unsupportedRadixError => 5
  | .signBitOverlapError => 6
  | .illegalCommandError => 7

/-- `dsr'` is `dsr` with exactly the flags of the reported diagnostics set besides (10_state.md R28, 60_exceptions.md R201).
The eight diagnostics are all eight bits. -/
def flagsAfter (dsr dsr' : DsrWord) (ds : List Diag) : Prop :=
  ∀ e : Diag, dsr'.getLsbD (dsrBitOf e) = (dsr.getLsbD (dsrBitOf e) || decide (e ∈ ds))

/-- From `s` to `t` exactly one response is given, the pair `rn / rd` with the diagnostics `ds`, and the host's list is as it
was (30_encoding.md R71). -/
def responds (s t : State) (rn rd : Int) (ds : List Diag) : Prop :=
  t.inputs = s.inputs ∧
  ∃ r : Response, t.rsp = some r ∧ t.responses = s.responses ++ [r] ∧ r.rn.toInt = rn ∧ r.rd.toInt = rd ∧ r.diags = ds

/-- All that a command does to the state apart from `raw`: the flags of `dsr`, and the response. -/
def commandEnds (s t : State) (rn rd : Int) (ds : List Diag) : Prop :=
  flagsAfter s.dsr t.dsr ds ∧ responds s t rn rd ds

/-- The executor gave no diagnostic to any response so far: the label is as the host intended (R12). -/
def cleanRun (s : State) : Prop := ∀ r ∈ s.responses, r.diags = []

/-- The bits of the command word at `[lo + len - 1 : lo]`, as a number (00_scope.md R7). -/
def cmdBits (w : CmdWord) (lo len : Nat) : Nat := w.toNat / 2 ^ lo % 2 ^ len

/-- The command-word fields that commands may use (30_encoding.md R60). -/
inductive Field where
  | fb | lb | sb | a | b | c | d
deriving DecidableEq, Repr

/-- The value of a field, at the position the table of R60 prints. -/
def fieldAt (w : CmdWord) : Field → Nat
  | .fb => cmdBits w 8 6
  | .lb => cmdBits w 14 6
  | .sb => cmdBits w 20 6
  | .a => cmdBits w 32 64
  | .b => cmdBits w 96 64
  | .c => cmdBits w 160 64
  | .d => cmdBits w 224 64

/-- The fields each command uses, as the table of 30_encoding.md R65 prints them. -/
def usedFields : Instr → List Field
  | .setraw _ _ _ => [.fb, .lb, .a]
  | .getraw _ _ => [.fb, .lb]
  | .setid _ => [.a]
  | .getid => []
  | .setsdi _ => [.a]
  | .getsdi => []
  | .setssm _ => [.a]
  | .getssm => []
  | .setpar _ => [.a]
  | .getpar => []
  | .setbnr _ _ _ _ _ => [.fb, .lb, .sb, .a, .b, .c, .d]
  | .getbnr _ _ _ _ => [.fb, .lb, .sb, .c, .d]
  | .setbcdd _ _ _ => [.fb, .lb, .a]
  | .setbcd _ _ _ _ => [.fb, .lb, .a, .b]
  | .getbcd _ _ _ => [.fb, .lb, .b]
  | .setdisc _ _ _ => [.fb, .lb, .a]
  | .getdisc _ _ => [.fb, .lb]
  | .setdbit _ _ => [.fb, .a]
  | .getdbit _ => [.fb]
  | .clr => []
  | .getword => []
  | .getdsr => []
  | .clrdsr => []

/-- The word is illegal by 30_encoding.md R66: `OP` is `0x00` or in `0x18` to `0xFF`, or `RSV` is not 0. -/
def illegalWord (w : CmdWord) : Prop := cmdBits w 0 8 = 0 ∨ 0x18 ≤ cmdBits w 0 8 ∨ cmdBits w 26 6 ≠ 0

/-- The word is one the spec makes an illegal command, by its opcode and operand words: R66, then the four operand conditions of
30_encoding.md R67 (a zero denominator of SETBNR or GETBNR, a zero resolution of SETBNR, a SETPAR operand other than 0 and 1). -/
def illegalCommandWord (w : CmdWord) : Prop :=
  illegalWord w ∨
  (cmdBits w 0 8 = 0x0B ∧ (fieldAt w .b = 0 ∨ fieldAt w .c = 0 ∨ fieldAt w .d = 0)) ∨
  (cmdBits w 0 8 = 0x0C ∧ fieldAt w .d = 0) ∨
  (cmdBits w 0 8 = 0x09 ∧ fieldAt w .a ≠ 0 ∧ fieldAt w .a ≠ 1)

/-- The commands that only read (30_encoding.md R65: those with a result). -/
def isGetter : Instr → Bool
  | .setraw _ _ _ => false
  | .getraw _ _ => true
  | .setid _ => false
  | .getid => true
  | .setsdi _ => false
  | .getsdi => true
  | .setssm _ => false
  | .getssm => true
  | .setpar _ => false
  | .getpar => true
  | .setbnr _ _ _ _ _ => false
  | .getbnr _ _ _ _ => true
  | .setbcdd _ _ _ => false
  | .setbcd _ _ _ _ => false
  | .getbcd _ _ _ => true
  | .setdisc _ _ _ => false
  | .getdisc _ _ => true
  | .setdbit _ _ => false
  | .getdbit _ => true
  | .clr => false
  | .getword => true
  | .getdsr => true
  | .clrdsr => false

/-- Label bit `n` lies in a range the command was given, or that is fixed for it (00_scope.md R2, 20_memory.md R42); `CLR`
writes the whole label. -/
def mayWrite (i : Instr) (n : Nat) : Prop :=
  match i with
  | .setraw _ f l => f ≤ n ∧ n ≤ l
  | .getraw _ _ => False
  | .setid _ => 1 ≤ n ∧ n ≤ 8
  | .getid => False
  | .setsdi _ => 9 ≤ n ∧ n ≤ 10
  | .getsdi => False
  | .setssm _ => 30 ≤ n ∧ n ≤ 31
  | .getssm => False
  | .setpar _ => n = 32
  | .getpar => False
  | .setbnr _ _ f l sb => (f ≤ n ∧ n ≤ l) ∨ n = sb
  | .getbnr _ _ _ _ => False
  | .setbcdd _ f l => f ≤ n ∧ n ≤ l
  | .setbcd _ _ f l => f ≤ n ∧ n ≤ l
  | .getbcd _ _ _ => False
  | .setdisc _ f l => f ≤ n ∧ n ≤ l
  | .getdisc _ _ => False
  | .setdbit _ b => n = b
  | .getdbit _ => False
  | .clr => True
  | .getword => False
  | .getdsr => False
  | .clrdsr => False

/-- No diagnostic, or one of `es`. -/
def atMostOne (es ds : List Diag) : Prop := ds = [] ∨ ∃ e ∈ es, ds = [e]

/-- The diagnostics a command can report, in the order they can appear, as the table of 60_exceptions.md R206 prints them. -/
def diagsAllowed (i : Instr) (ds : List Diag) : Prop :=
  match i with
  | .setraw _ _ _ => atMostOne [.rangeError, .valueTooWideError, .rangeOccupiedError] ds
  | .getraw _ _ => atMostOne [.rangeError] ds
  | .setid _ => atMostOne [.valueTooWideError, .rangeOccupiedError] ds
  | .getid => ds = []
  | .setsdi _ => atMostOne [.valueTooWideError, .rangeOccupiedError] ds
  | .getsdi => ds = []
  | .setssm _ => atMostOne [.valueTooWideError, .rangeOccupiedError] ds
  | .getssm => ds = []
  | .setpar _ => atMostOne [.illegalCommandError, .rangeOccupiedError] ds
  | .getpar => ds = []
  | .setbnr _ _ _ _ _ =>
    ds = [.illegalCommandError] ∨
    ∃ warning, atMostOne [.signBitOverlapError] warning ∧
      (ds = warning ++ [.valueOutOfRangeError] ∨
        ∃ magnitude sign, atMostOne [.rangeError, .rangeOccupiedError] magnitude ∧
          atMostOne [.rangeError, .rangeOccupiedError] sign ∧ ds = warning ++ magnitude ++ sign)
  | .getbnr _ _ _ _ =>
    ds = [.illegalCommandError] ∨
    ∃ magnitude sign, atMostOne [.rangeError] magnitude ∧ atMostOne [.rangeError] sign ∧ ds = magnitude ++ sign
  | .setbcdd _ _ _ => atMostOne [.digitOutOfRangeError, .rangeError, .rangeOccupiedError] ds
  | .setbcd _ _ f l =>
    ds = [.unsupportedRadixError] ∨ ds = [.valueOutOfRangeError] ∨
    ∃ (groups : List (List Diag)) (leftover : List Diag),
      groups.length = (l + 1 - f + 3) / 4 ∧
      (∀ g ∈ groups, atMostOne [.digitOutOfRangeError, .rangeError, .rangeOccupiedError] g) ∧
      atMostOne [.valueOutOfRangeError] leftover ∧ ds = groups.flatten ++ leftover
  | .getbcd _ f l =>
    ds = [.unsupportedRadixError] ∨
    ∃ groups : List (List Diag),
      groups.length = (l + 1 - f + 3) / 4 ∧
      (∀ k, k < groups.length →
        groups.getD k [] = if legalRange (f + 4 * k) (min (f + 4 * k + 3) l) then [] else [.rangeError]) ∧
      ds = groups.flatten
  | .setdisc _ _ _ => atMostOne [.rangeError, .valueTooWideError, .rangeOccupiedError] ds
  | .getdisc _ _ => atMostOne [.rangeError] ds
  | .setdbit _ _ => atMostOne [.rangeError, .valueTooWideError, .rangeOccupiedError] ds
  | .getdbit _ => atMostOne [.rangeError] ds
  | .clr => ds = []
  | .getword => ds = []
  | .getdsr => ds = []
  | .clrdsr => ds = []

/-- The bound on the number of diagnostics of a command (60_exceptions.md R207). -/
def diagBound : Instr → Nat
  | .setraw _ _ _ => 1
  | .getraw _ _ => 1
  | .setid _ => 1
  | .getid => 1
  | .setsdi _ => 1
  | .getsdi => 1
  | .setssm _ => 1
  | .getssm => 1
  | .setpar _ => 1
  | .getpar => 1
  | .setbnr _ _ _ _ _ => 3
  | .getbnr _ _ _ _ => 2
  | .setbcdd _ _ _ => 1
  | .setbcd _ _ f l => if legalRange f l then 9 else 17
  | .getbcd _ _ _ => 9
  | .setdisc _ _ _ => 1
  | .getdisc _ _ => 1
  | .setdbit _ _ => 1
  | .getdbit _ => 1
  | .clr => 1
  | .getword => 1
  | .getdsr => 1
  | .clrdsr => 1

/-- The largest value a BCD range holds: with `g` full groups `10^g - 1`, with a last group of `t` bits besides
`min(9, 2^t - 1) * 10^g + 10^g - 1` (44_bcd.md R170). -/
def bcdLargest (f l : Nat) : Nat :=
  let g := (l + 1 - f) / 4
  let t := (l + 1 - f) % 4
  if t = 0 then 10 ^ g - 1 else min 9 (2 ^ t - 1) * 10 ^ g + 10 ^ g - 1

/-- A rational operand as the rational it denotes (30_encoding.md R63). -/
def ratioValue (q : Ratio) : ℚ := (q.num : ℚ) / (q.den : ℚ)

/-- The invariant every step keeps: no response has a zero denominator or more than 17 diagnostics (30_encoding.md R71), the
response on the port is the last one of the trace, and every flag of `dsr` that is set was reported by some response
(60_exceptions.md R201). -/
def Inv (s : State) : Prop :=
  (∀ r ∈ s.responses, r.rd.toInt ≠ 0 ∧ r.diags.length ≤ 17) ∧
  (∀ r, s.rsp = some r → s.responses.getLast? = some r) ∧
  (∀ e, s.dsr.getLsbD (dsrBitOf e) = true → ∃ r ∈ s.responses, e ∈ r.diags)

end Sys2Proof.Machine
end

