-- ==== Sys2Proof/Certificates/Slice0/Obligations.lean ====
section
/-! DEFINITION. The statements about the machine, from the numbered rules of spec/. `commandEnds`, `writeEffect`, `readEffect`
and the other words they use are defined in Sys2Proof/Safety.lean. -/

set_option exponentiation.threshold 400

open Sys2Proof Sys2Proof.Machine

/-! ### Encoding -/

/-- R60, R61, R62, R63, R65: encoding a command that a word can hold, and decoding the word, gives the command back. For
SETPAR with an operand other than 0 and 1, and for rationals with denominator 0, this is the model's choice (log entry 6): the last
step of R68 applies R67 and answers ILLEGAL for their words, while `decode` stops before R67 and the meaning tests it. -/
def Obligations.DecodeUndoesEncode : Prop :=
  ∀ i : Instr, i.wf = true → decode (encode i) = .command i

/-- R61, R62, R63: what the decoder reads is always a command a word can hold. -/
def Obligations.DecodedCommandsFitTheirFields : Prop :=
  ∀ (w : CmdWord) (i : Instr), decode w = .command i → i.wf = true

/-- R64: for each of the 23 opcodes, the mask test `cmd & 0xFC0000FF == OP` holds of exactly the words that `decode` gives a
command with that opcode. That it gives one for a word with operands R67 calls illegal too (SETPAR 2, a denominator 0) is the model's
choice (log entry 6): `decode` stops before R67, which R68 applies as its last step. -/
def Obligations.MaskTestSelectsTheCommand : Prop :=
  ∀ (w : CmdWord) (op : Nat), 1 ≤ op → op ≤ 0x17 →
    ((w &&& 0xFC0000FF#288).toNat = op ↔ ∃ i, decode w = .command i ∧ (opcode i).toNat = op)

/-- R65: a field that a command does not use may hold anything, and the canonical encoding has it 0. -/
def Obligations.IgnoredFieldsHaveNoEffect : Prop :=
  (∀ (w w' : CmdWord) (i : Instr), decode w = .command i →
    cmdBits w' 0 8 = cmdBits w 0 8 → cmdBits w' 26 6 = cmdBits w 26 6 →
    (∀ x ∈ usedFields i, fieldAt w' x = fieldAt w x) → decode w' = .command i) ∧
  (∀ (i : Instr) (x : Field), x ∉ usedFields i → fieldAt (encode i) x = 0)

/-- R74 and a few words of the listings, written out. -/
def Obligations.WorkedWordsDecode : Prop :=
  encode (.setbnr ⟨140, 1⟩ ⟨4096, 32768⟩ 14 28 29) =
    0x000000000000800000000000000010000000000000000001000000000000008C01D70E0B#288 ∧
  decode 0x000000000000800000000000000010000000000000000001000000000000008C01D70E0B#288 =
    .command (.setbnr ⟨140, 1⟩ ⟨4096, 32768⟩ 14 28 29) ∧
  decode 0x0000000000000000000000000000000000000000000000000000000000000005_0000C101#288 = .command (.setraw 5 1 3) ∧
  decode 0x0000000000000000000000000000000000000000000000000000000000000001_04010401#288 = .illegal .reservedBits ∧
  decode 0x18#288 = .illegal .undefinedOpcode ∧
  decode 0x000000000000000B00000000000000090000000000000007FFFFFFFFFFFFFFFF03FFFF14#288 = .command .clr

/-- The first clause is the model's choice (log entry 6): `decode` itself rejects exactly the words whose `OP` is undefined or
whose `RSV` is not 0, where R68 and R194 make the words of R67 ILLEGAL too, which the meanings test. The effect clause is R66:
executing such a word reports `IllegalCommandError` and nothing else, leaves `raw`, gives result 0, and the next input is taken as
usual. -/
def Obligations.IllegalWordsOnlyReport : Prop :=
  ∀ w : CmdWord, (illegalWord w ↔ ∃ why, decode w = .illegal why) ∧
    (illegalWord w → ∀ (s : State) (rest : List HostInput), s.inputs = .command w :: rest →
      ∃ t, step s = .next t ∧ t.raw = s.raw ∧ t.inputs = rest ∧
        commandEnds (takeInput s rest) t 0 1 [.illegalCommandError])

/-- R67 (with R149's zero resolution): an illegal operand gives exactly the behaviour of an illegal command, before any other
check. -/
def Obligations.IllegalOperandsOnlyReport : Prop :=
  ∀ (s : State) (i : Instr),
    ((∃ v r f l sb, i = .setbnr v r f l sb ∧ (v.den = 0 ∨ r.den = 0 ∨ r.num = 0)) ∨
      (∃ r f l sb, i = .getbnr r f l sb ∧ r.den = 0) ∨
      (∃ p, i = .setpar p ∧ p ≠ 0 ∧ p ≠ 1)) →
    ∃ t, exec i s = .next t ∧ t.raw = s.raw ∧ commandEnds s t 0 1 [.illegalCommandError]

/-- R67, R194: a word that R66 or R67 calls illegal, or a SETBNR with zero resolution, runs as the illegal command, wherever the
model tests it (log entry 6); and no other command word reports `IllegalCommandError`. -/
def Obligations.IllegalCommandWordsAndNoOthersReportIt : Prop :=
  ∀ (s : State) (w : CmdWord) (rest : List HostInput), s.inputs = .command w :: rest →
    (illegalCommandWord w → ∃ t, step s = .next t ∧ t.raw = s.raw ∧ t.inputs = rest ∧
      commandEnds (takeInput s rest) t 0 1 [.illegalCommandError]) ∧
    (¬ illegalCommandWord w → ∃ t r, step s = .next t ∧ t.rsp = some r ∧ .illegalCommandError ∉ r.diags)

/-! ### The step -/

/-- R11, R26: the step on a command word that decodes is the meaning of the command, the word taken from the host's list. -/
def Obligations.StepRunsTheDecodedCommand : Prop :=
  ∀ (s : State) (w : CmdWord) (rest : List HostInput) (i : Instr),
    s.inputs = .command w :: rest → decode w = .command i → step s = exec i { s with inputs := rest }

/-- The fetch of `withFetchWord` (log entry 11): the very next step runs the table word's command. -/
def Obligations.StepRunsThePresentedTableWord : Prop :=
  ∀ (s : State) (nbits w : Nat) (i : Instr),
    decodeTableWord nbits w = some i → step (s.withFetchWord nbits w) = exec i s

/-- R231: a reset request between commands takes any state to the reset state, with no response and no diagnostic. What happens
to the host's list and the trace is the model's choice (log entries 1, 3). -/
def Obligations.ResetRequestGivesTheResetState : Prop :=
  ∀ (s : State) (rest : List HostInput), s.inputs = .reset :: rest →
    ∃ t, step s = .next t ∧ t.raw = 0#32 ∧ t.dsr = 0#8 ∧ t.rsp = none ∧ t.diagPulses = [] ∧
      t.inputs = rest ∧ t.responses = s.responses

/-- R230: the state and the outputs after reset. -/
def Obligations.ResetStateIsAllZero : Prop :=
  State.reset.raw = 0x00000000#32 ∧ State.reset.dsr = 0x00#8 ∧
  State.reset.rawPort = 0#32 ∧ State.reset.dsrPort = 0#8 ∧ State.reset.cmdReady = true ∧
  State.reset.rspValid = false ∧ State.reset.diagPulses = [] ∧ State.reset.diagCodePort = 0#4

/-- The model's choice (log entry 2): with nothing presented the block waits and keeps both registers. -/
def Obligations.WaitingKeepsTheRegisters : Prop :=
  ∀ s : State, s.inputs = [] →
    ∃ t, step s = .next t ∧ t.raw = s.raw ∧ t.dsr = s.dsr ∧ t.rspValid = false ∧ t.responses = s.responses ∧ t.inputs = []

/-- R11, R203: nothing stops the block: every step from every state answers a next state, and so does every command. -/
def Obligations.NothingEverStops : Prop :=
  (∀ s : State, ∃ t, step s = .next t) ∧ (∀ (i : Instr) (s : State), ∃ t, exec i s = .next t)

/-- R71, R201: every step keeps the invariant `Inv`: no zero denominator and at most 17 diagnostics in any response, the port
shows the last response, every set flag of `dsr` was reported. -/
def Obligations.EveryStepKeepsTheInvariant : Prop :=
  ∀ s t : State, Inv s → step s = .next t → Inv t

/-- The invariant holds at reset. -/
def Obligations.ResetMeetsTheInvariant : Prop := Inv State.reset

/-- R12: as long as the host issues neither `CLRDSR` nor reset, `dsr = 0` stays equivalent to 'no diagnostic was reported'. -/
def Obligations.ZeroDsrMeansCleanRun : Prop :=
  ∀ s t : State, (s.dsr = 0#8 ↔ cleanRun s) →
    (∀ rest, s.inputs ≠ .reset :: rest) →
    (∀ w rest, s.inputs = .command w :: rest → decode w ≠ .command .clrdsr) →
    step s = .next t → (t.dsr = 0#8 ↔ cleanRun t)

/-! ### Rules of the whole machine -/

/-- R23: between `CLR` or reset, `raw` only gains 1 bits, so its population count never falls and a 1 bit stays 1. -/
def Obligations.RawOnlyGainsBits : Prop :=
  ∀ s t : State,
    (∀ rest, s.inputs ≠ .reset :: rest) →
    (∀ w rest, s.inputs = .command w :: rest → decode w ≠ .command .clr) →
    step s = .next t →
    t.raw &&& s.raw = s.raw ∧ popCount s.raw.toNat ≤ popCount t.raw.toNat ∧
      (∀ n, 1 ≤ n → n ≤ 32 → labelBit s.raw n = true → labelBit t.raw n = true)

/-- R2: no command touches a label bit outside the ranges it is given. -/
def Obligations.NoBitOutsideTheGivenRangesChanges : Prop :=
  ∀ (i : Instr) (s t : State) (n : Nat), exec i s = .next t → 1 ≤ n → n ≤ 32 → ¬ mayWrite i n →
    labelBit t.raw n = labelBit s.raw n

/-- R28, R71, R201: a command gives exactly one response, sets exactly the flags of the diagnostics in it (`CLRDSR` aside), and
takes nothing from the host. -/
def Obligations.EachCommandGivesOneResponse : Prop :=
  ∀ (i : Instr) (s t : State), exec i s = .next t →
    ∃ r : Response, t.rsp = some r ∧ t.responses = s.responses ++ [r] ∧ t.inputs = s.inputs ∧
      t.diagPulses = r.diags.map diagCode ∧ (i ≠ .clrdsr → flagsAfter s.dsr t.dsr r.diags)

/-- R24, R28, R32: the new label and the response depend on `raw` and the command alone, except that `GETDSR` reads `dsr`;
nothing else of the state is read. -/
def Obligations.NoHiddenStateIsRead : Prop :=
  ∀ (i : Instr) (s s' : State), s'.raw = s.raw →
    ∃ t t', exec i s = .next t ∧ exec i s' = .next t' ∧ t'.raw = t.raw ∧
      (i ≠ .getdsr → t'.rsp = t.rsp) ∧ (s'.dsr = s.dsr → t'.dsr = t.dsr ∧ t'.rsp = t.rsp)

/-- R22, R46: a command that only reads leaves `raw`, and reading again gives the same response. -/
def Obligations.ReadingIsIdempotent : Prop :=
  ∀ (i : Instr) (s : State), isGetter i = true →
    ∃ t u, exec i s = .next t ∧ t.raw = s.raw ∧ exec i t = .next u ∧ u.raw = s.raw ∧ u.rsp = t.rsp

/-- R206: which diagnostics a command can report, and in which order. -/
def Obligations.DiagnosticsFollowTheTable : Prop :=
  ∀ (i : Instr) (s : State), ∃ t r, exec i s = .next t ∧ t.rsp = some r ∧ diagsAllowed i r.diags

/-- R207: how many diagnostics a command can report. -/
def Obligations.DiagnosticCountIsBounded : Prop :=
  ∀ (i : Instr) (s : State), i.wf = true → ∃ t r, exec i s = .next t ∧ t.rsp = some r ∧ r.diags.length ≤ diagBound i

/-! ### Helpers, codes and flags -/

/-- R100: `highestSetBit`. -/
def Obligations.HighestSetBitIsTheTopBit : Prop :=
  highestSetBit 0 = -1 ∧
  ∀ v : Nat, 0 < v → ∃ k : Nat, highestSetBit v = (k : Int) ∧ 2 ^ k ≤ v ∧ v < 2 ^ (k + 1)

/-- R101: `popCount` is the number of 1 bits. -/
def Obligations.PopCountCountsTheOneBits : Prop :=
  ∀ v m : Nat, v < 2 ^ m → popCount v = ((List.range m).filter fun k => v.testBit k).length

/-- R102: `maskRange` keeps the bits of the range in place and clears the others. -/
def Obligations.MaskRangeKeepsTheRangeInPlace : Prop :=
  ∀ (word : LabelWord) (f l n : Nat), legalRange f l → 1 ≤ n → n ≤ 32 →
    labelBit (maskRange word f l) n = (decide (f ≤ n ∧ n ≤ l) && labelBit word n)

/-- R27, R200: the codes and the masks of the eight flags. -/
def Obligations.DiagnosticCodesAndMasks : Prop :=
  (∀ e : Diag, (diagCode e).toNat = dsrBitOf e + 1 ∧ flagMask e = BitVec.ofNat 8 (2 ^ dsrBitOf e)) ∧
  (∀ k, k < 8 → ∃ e : Diag, dsrBitOf e = k)

/-! ### Raw accessor, fixed fields, discretes -/

/-- R106, R108, R180, R181: `SETRAW`, `SETDISC` and `SETDBIT` are one guarded write. -/
def Obligations.WritesFollowTheGuards : Prop :=
  ∀ (s : State) (v : Int) (f l : Nat),
    (∃ t ds, exec (.setraw v f l) s = .next t ∧ writeEffect s.raw v f l t.raw ds ∧ commandEnds s t 0 1 ds) ∧
    (∃ t ds, exec (.setdisc v f l) s = .next t ∧ writeEffect s.raw v f l t.raw ds ∧ commandEnds s t 0 1 ds) ∧
    (∃ t ds, exec (.setdbit v f) s = .next t ∧ writeEffect s.raw v f f t.raw ds ∧ commandEnds s t 0 1 ds)

/-- R107, R109, R182, R183: `GETRAW`, `GETDISC` and `GETDBIT` are one read, and leave `raw`. -/
def Obligations.ReadsReturnTheField : Prop :=
  ∀ (s : State) (f l : Nat),
    (∃ t v ds, exec (.getraw f l) s = .next t ∧ t.raw = s.raw ∧ readEffect s.raw f l v ds ∧ commandEnds s t v 1 ds) ∧
    (∃ t v ds, exec (.getdisc f l) s = .next t ∧ t.raw = s.raw ∧ readEffect s.raw f l v ds ∧ commandEnds s t v 1 ds) ∧
    (∃ t v ds, exec (.getdbit f) s = .next t ∧ t.raw = s.raw ∧ readEffect s.raw f f v ds ∧ commandEnds s t v 1 ds)

/-- R120, R122, R124: `SETID`, `SETSDI`, `SETSSM` write their fixed ranges: too wide, else occupied, else written. -/
def Obligations.FixedFieldWrites : Prop :=
  ∀ (s : State) (v : Int) (i : Instr) (f l : Nat),
    (i = .setid v ∧ f = 1 ∧ l = 8) ∨ (i = .setsdi v ∧ f = 9 ∧ l = 10) ∨ (i = .setssm v ∧ f = 30 ∧ l = 31) →
    ∃ t ds, exec i s = .next t ∧ commandEnds s t 0 1 ds ∧
      (v < 0 ∨ 2 ^ (l + 1 - f) ≤ v → t.raw = s.raw ∧ ds = [.valueTooWideError]) ∧
      (0 ≤ v → v < 2 ^ (l + 1 - f) → ¬ bitsFree s.raw f l → t.raw = s.raw ∧ ds = [.rangeOccupiedError]) ∧
      (0 ≤ v → v < 2 ^ (l + 1 - f) → bitsFree s.raw f l →
        fieldHolds t.raw f l v.toNat ∧ sameOutside s.raw t.raw f l ∧ ds = [])

/-- R121, R123, R125, R132: `GETID`, `GETSDI`, `GETSSM`, `GETPAR` read their fixed ranges and never report. -/
def Obligations.FixedFieldReads : Prop :=
  ∀ (s : State) (i : Instr) (f l : Nat),
    (i = .getid ∧ f = 1 ∧ l = 8) ∨ (i = .getsdi ∧ f = 9 ∧ l = 10) ∨ (i = .getssm ∧ f = 30 ∧ l = 31) ∨
      (i = .getpar ∧ f = 32 ∧ l = 32) →
    ∃ (t : State) (v : Nat), exec i s = .next t ∧ t.raw = s.raw ∧ v < 2 ^ (l + 1 - f) ∧ fieldHolds s.raw f l v ∧
      commandEnds s t v 1 []

/-- R110: after a write into a free legal range the field reads back, and every disjoint range reads as before. -/
def Obligations.WriteThenReadReturnsTheValue : Prop :=
  ∀ (s : State) (v f l : Nat), legalRange f l → v < 2 ^ (l + 1 - f) → bitsFree s.raw f l →
    ∃ t u, exec (.setraw v f l) s = .next t ∧ commandEnds s t 0 1 [] ∧
      exec (.getraw f l) t = .next u ∧ commandEnds t u v 1 [] ∧
      ∀ f' l', legalRange f' l' → (l' < f ∨ l < f') →
        ∃ a b x, exec (.getraw f' l') s = .next a ∧ commandEnds s a x 1 [] ∧
          exec (.getraw f' l') t = .next b ∧ commandEnds t b x 1 []

/-- R111: a fitting value aimed at a legal range that holds a 1 bit is refused, whatever its own bits are. -/
def Obligations.OverlapIsRejected : Prop :=
  ∀ (s : State) (v f l n : Nat), legalRange f l → v < 2 ^ (l + 1 - f) → f ≤ n → n ≤ l → labelBit s.raw n = true →
    ∃ t, exec (.setraw v f l) s = .next t ∧ t.raw = s.raw ∧ commandEnds s t 0 1 [.rangeOccupiedError]

/-! ### Parity -/

/-- R131, R133: with label bit 32 clear, `SETPAR` leaves a word whose population count has the desired parity, changes no other
bit and reports nothing. -/
def Obligations.SetparMakesTheParity : Prop :=
  ∀ (s : State) (p : Nat), p < 2 → labelBit s.raw 32 = false →
    ∃ t, exec (.setpar p) s = .next t ∧ popCount t.raw.toNat % 2 = p ∧ sameOutside s.raw t.raw 32 32 ∧
      commandEnds s t 0 1 []

/-- R134: with label bit 32 already 1, `SETPAR` is refused whatever the operand. -/
def Obligations.SetparNeverRewritesBit32 : Prop :=
  ∀ (s : State) (p : Nat), p < 2 → labelBit s.raw 32 = true →
    ∃ t, exec (.setpar p) s = .next t ∧ t.raw = s.raw ∧ commandEnds s t 0 1 [.rangeOccupiedError]

/-! ### BNR -/

/-- R8, R141: the encoder truncates the exact quotient toward zero. -/
def Obligations.EncoderTruncatesTowardZero : Prop :=
  ∀ v r : Ratio, v.den ≠ 0 → r.den ≠ 0 → r.num ≠ 0 →
    let q : ℚ := ratioValue v / ratioValue r
    let t : ℚ := (bnrEncode v r : ℚ)
    |t| ≤ |q| ∧ |q| < |t| + 1 ∧ (t = 0 ∨ (0 < t ∧ 0 < q) ∨ (t < 0 ∧ q < 0)) ∧
      ((bnrEncode v r).natAbs : Int) = ⌊|q|⌋ ∧ (bnrEncode v r < 0 ↔ q ≤ -1)

/-- R142, R145, R148, R149: `SETBNR` statement by statement: zero resolution, overlap warning, range check, then the magnitude
write and the sign write, each whatever became of the other. -/
def Obligations.SetbnrFollowsItsStatements : Prop :=
  ∀ (s : State) (v r : Ratio) (f l sb : Nat), v.den ≠ 0 → r.den ≠ 0 →
    let e := bnrEncode v r
    let warning : List Diag := if f ≤ sb ∧ sb ≤ l then [.signBitOverlapError] else []
    ∃ t ds, exec (.setbnr v r f l sb) s = .next t ∧ commandEnds s t 0 1 ds ∧
      (r.num = 0 → t.raw = s.raw ∧ ds = [.illegalCommandError]) ∧
      (r.num ≠ 0 → 2 ^ (l + 1 - f) ≤ e.natAbs → t.raw = s.raw ∧ ds = warning ++ [.valueOutOfRangeError]) ∧
      (r.num ≠ 0 → e.natAbs < 2 ^ (l + 1 - f) →
        ∃ mid magnitude sign, writeEffect s.raw e.natAbs f l mid magnitude ∧
          writeEffect mid (if e < 0 then 1 else 0) sb sb t.raw sign ∧ ds = warning ++ magnitude ++ sign)

/-- R146: on a free legal range with a free sign bit outside it, the field holds the magnitude, the sign bit the sign, and
nothing else changes. -/
def Obligations.SetbnrStoresSignAndMagnitude : Prop :=
  ∀ (s : State) (v r : Ratio) (f l sb : Nat), v.den ≠ 0 → r.den ≠ 0 → r.num ≠ 0 →
    legalRange f l → legalRange sb sb → ¬ (f ≤ sb ∧ sb ≤ l) →
    bitsFree s.raw f l → labelBit s.raw sb = false → (bnrEncode v r).natAbs < 2 ^ (l + 1 - f) →
    ∃ t, exec (.setbnr v r f l sb) s = .next t ∧ commandEnds s t 0 1 [] ∧
      fieldHolds t.raw f l (bnrEncode v r).natAbs ∧ labelBit t.raw sb = decide (bnrEncode v r < 0) ∧
      ∀ n, 1 ≤ n → n ≤ 32 → ¬ (f ≤ n ∧ n ≤ l) → n ≠ sb → labelBit t.raw n = labelBit s.raw n

/-- R144: a sign bit inside a free legal range is a warning; the magnitude is written, then the sign is refused where the
magnitude has a 1, is silent where it is 0 and the value is not negative, and else corrupts the magnitude. -/
def Obligations.SignOverlapWarnsAndGoesOn : Prop :=
  ∀ (s : State) (v r : Ratio) (f l sb : Nat), v.den ≠ 0 → r.den ≠ 0 → r.num ≠ 0 →
    legalRange f l → f ≤ sb → sb ≤ l → bitsFree s.raw f l → (bnrEncode v r).natAbs < 2 ^ (l + 1 - f) →
    let m := (bnrEncode v r).natAbs
    let b := m.testBit (sb - f)
    ∃ t ds, exec (.setbnr v r f l sb) s = .next t ∧ commandEnds s t 0 1 ds ∧ sameOutside s.raw t.raw f l ∧
      (b = true → fieldHolds t.raw f l m ∧ ds = [.signBitOverlapError, .rangeOccupiedError]) ∧
      (b = false → 0 ≤ bnrEncode v r → fieldHolds t.raw f l m ∧ ds = [.signBitOverlapError]) ∧
      (b = false → bnrEncode v r < 0 → fieldHolds t.raw f l (m + 2 ^ (sb - f)) ∧ ds = [.signBitOverlapError])

/-- R150 (a): with `firstBit > lastBit` the label never changes, and something is always reported. -/
def Obligations.ReversedBnrRangeWritesNothing : Prop :=
  ∀ (s : State) (v r : Ratio) (f l sb : Nat), v.den ≠ 0 → r.den ≠ 0 → r.num ≠ 0 → l < f →
    ∃ t ds, exec (.setbnr v r f l sb) s = .next t ∧ t.raw = s.raw ∧ commandEnds s t 0 1 ds ∧
      (bnrEncode v r ≠ 0 → ds = [.valueOutOfRangeError]) ∧
      (bnrEncode v r = 0 → ∃ sign, writeEffect s.raw 0 sb sb s.raw sign ∧ ds = .rangeError :: sign)

/-- R143, R149: `GETBNR` reads the magnitude, then the sign, and answers the signed product over the denominator as encoded. -/
def Obligations.GetbnrReturnsTheSignedProduct : Prop :=
  ∀ (s : State) (r : Ratio) (f l sb : Nat), r.den ≠ 0 → r.encodable = true →
    ∃ (t : State) (m sg : Nat) (ds es : List Diag), exec (.getbnr r f l sb) s = .next t ∧ t.raw = s.raw ∧
      readEffect s.raw f l m ds ∧ readEffect s.raw sb sb sg es ∧
      commandEnds s t ((if sg ≠ 0 then -1 else 1) * (m : Int) * r.num) r.den (ds ++ es)

/-- R147: the BNR round trip. -/
def Obligations.BnrRoundTrip : Prop :=
  ∀ (s : State) (v r : Ratio) (f l sb : Nat), v.den ≠ 0 → r.den ≠ 0 → r.num ≠ 0 → r.encodable = true →
    legalRange f l → legalRange sb sb → ¬ (f ≤ sb ∧ sb ≤ l) →
    bitsFree s.raw f l → labelBit s.raw sb = false → (bnrEncode v r).natAbs < 2 ^ (l + 1 - f) →
    (∃ (t u : State) (rn : Int), exec (.setbnr v r f l sb) s = .next t ∧ commandEnds s t 0 1 [] ∧
      exec (.getbnr r f l sb) t = .next u ∧ commandEnds t u rn r.den [] ∧
      (rn : ℚ) / (r.den : ℚ) = (bnrEncode v r : ℚ) * ratioValue r) ∧
    |ratioValue v - (bnrEncode v r : ℚ) * ratioValue r| < |ratioValue r| ∧
    (ratioValue v = (bnrEncode v r : ℚ) * ratioValue r ↔ ∃ k : ℤ, ratioValue v = (k : ℚ) * ratioValue r)

/-! ### BCD -/

/-- R160: group `k` is `[f + 4k, min(f + 4k + 3, l)]`, and exists when `f + 4k ≤ l`. -/
def Obligations.BcdGroupsCountFromTheFirstBit : Prop :=
  ∀ f l k p h : Nat, (bcdGroups f l)[k]? = some (p, h) ↔ (p = f + 4 * k ∧ h = min (p + 3) l ∧ p ≤ l)

/-- R161, R162: `SETBCDD` checks the digit against the capacity of the range, then writes under the guards. -/
def Obligations.SetbcddChecksTheCapacityFirst : Prop :=
  ∀ (s : State) (d : Int) (f l : Nat),
    ∃ t ds, exec (.setbcdd d f l) s = .next t ∧ commandEnds s t 0 1 ds ∧
      ((d < 0 ∨ 2 ^ (l + 1 - f) ≤ d) → t.raw = s.raw ∧ ds = [.digitOutOfRangeError]) ∧
      (0 ≤ d → d < 2 ^ (l + 1 - f) → writeEffect s.raw d f l t.raw ds)

/-- R168, R169: the radix is checked first, then the sign of the value; neither writes anything. -/
def Obligations.BcdRefusesRadixThenSign : Prop :=
  ∀ (s : State) (v radix : Int) (f l : Nat),
    (radix ≠ 10 → ∃ t, exec (.setbcd v radix f l) s = .next t ∧ t.raw = s.raw ∧ commandEnds s t 0 1 [.unsupportedRadixError]) ∧
    (radix ≠ 10 → ∃ t, exec (.getbcd radix f l) s = .next t ∧ t.raw = s.raw ∧ commandEnds s t 0 1 [.unsupportedRadixError]) ∧
    (v < 0 → ∃ t, exec (.setbcd v 10 f l) s = .next t ∧ t.raw = s.raw ∧ commandEnds s t 0 1 [.valueOutOfRangeError])

/-- R163, R166, R167, R171, R172: `SETBCD` gives group `k` the digit `value / 10^k mod 10`, each group on its own whatever the
others did, and reports leftover digits last. -/
def Obligations.SetbcdWritesEveryGroupOnItsOwn : Prop :=
  ∀ (s : State) (v f l : Nat),
    let n := (l + 1 - f + 3) / 4
    ∃ (t : State) (dss : List (List Diag)), exec (.setbcd v 10 f l) s = .next t ∧ dss.length = n ∧
      (∀ k, k < n → digitEffect s.raw (v / 10 ^ k % 10) (f + 4 * k) (min (f + 4 * k + 3) l) t.raw (dss.getD k [])) ∧
      sameOutside s.raw t.raw f l ∧
      commandEnds s t 0 1 (dss.flatten ++ (if v / 10 ^ n = 0 then [] else [.valueOutOfRangeError]))

/-- R164, R172: `GETBCD` sums `group * 10^k` over the groups, an illegal group counting 0 and reporting `RangeError`. -/
def Obligations.GetbcdSumsTheGroups : Prop :=
  ∀ (s : State) (f l : Nat), l < 64 →
    let n := (l + 1 - f + 3) / 4
    ∃ (t : State) (gs : List Nat) (dss : List (List Diag)), exec (.getbcd 10 f l) s = .next t ∧ t.raw = s.raw ∧
      gs.length = n ∧ dss.length = n ∧
      (∀ k, k < n → readEffect s.raw (f + 4 * k) (min (f + 4 * k + 3) l) (gs.getD k 0) (dss.getD k [])) ∧
      commandEnds s t (((List.range n).map fun k => gs.getD k 0 * 10 ^ k).sum : Nat) 1 dss.flatten

/-- R170: the BCD round trip, and which values fit. -/
def Obligations.BcdRoundTrip : Prop :=
  ∀ (s : State) (v f l : Nat), legalRange f l → bitsFree s.raw f l →
    ∃ t ds, exec (.setbcd v 10 f l) s = .next t ∧ commandEnds s t 0 1 ds ∧ (ds = [] ↔ v ≤ bcdLargest f l) ∧
      (ds = [] → ∃ u, exec (.getbcd 10 f l) t = .next u ∧ u.raw = t.raw ∧ commandEnds t u v 1 [])

/-! ### Housekeeping -/

/-- R190, R193: `CLR` clears `raw` alone, `CLRDSR` clears `dsr` alone. -/
def Obligations.ClearsAreSeparate : Prop :=
  ∀ s : State,
    (∃ t, exec .clr s = .next t ∧ t.raw = 0#32 ∧ t.dsr = s.dsr ∧ responds s t 0 1 []) ∧
    (∃ t, exec .clrdsr s = .next t ∧ t.raw = s.raw ∧ t.dsr = 0#8 ∧ responds s t 0 1 [])

/-- R191, R192: `GETWORD` returns `raw`, as `GETRAW 1, 32` does, and `GETDSR` returns `dsr`; neither changes a register. -/
def Obligations.WholeRegisterReads : Prop :=
  ∀ s : State,
    (∃ t, exec .getword s = .next t ∧ t.raw = s.raw ∧ t.dsr = s.dsr ∧ responds s t s.raw.toNat 1 [] ∧
      exec (.getraw 1 32) s = .next t) ∧
    (∃ t, exec .getdsr s = .next t ∧ t.raw = s.raw ∧ t.dsr = s.dsr ∧ responds s t s.dsr.toNat 1 [])
end

