-- ==== Sys2Proof/Laws/State.lean ====
section
/-! SUPPORT. One lemma for each field of each update of the state and of a command in progress. -/

namespace Sys2Proof.Machine

@[simp] theorem reset_raw : State.reset.raw = 0#32 := rfl
@[simp] theorem reset_dsr : State.reset.dsr = 0#8 := rfl
@[simp] theorem reset_inputs : State.reset.inputs = [] := rfl
@[simp] theorem reset_rsp : State.reset.rsp = none := rfl
@[simp] theorem reset_responses : State.reset.responses = [] := rfl

@[simp] theorem report_raw (e : Diag) (x : InFlight) : (report e x).raw = x.raw := rfl
@[simp] theorem report_dsr (e : Diag) (x : InFlight) : (report e x).dsr = setFlag x.dsr e := rfl
@[simp] theorem report_diags (e : Diag) (x : InFlight) : (report e x).diags = x.diags ++ [e] := rfl

@[simp] theorem startCommand_raw (s : State) : (startCommand s).raw = s.raw := rfl
@[simp] theorem startCommand_dsr (s : State) : (startCommand s).dsr = s.dsr := rfl
@[simp] theorem startCommand_diags (s : State) : (startCommand s).diags = [] := rfl

section
variable (s : State) (x : InFlight) (rn rd : Int)

@[simp] theorem completeCommand_raw : (completeCommand s x rn rd).raw = x.raw := rfl
@[simp] theorem completeCommand_dsr : (completeCommand s x rn rd).dsr = x.dsr := rfl
@[simp] theorem completeCommand_inputs : (completeCommand s x rn rd).inputs = s.inputs := rfl
@[simp] theorem completeCommand_rsp :
    (completeCommand s x rn rd).rsp = some ⟨BitVec.ofInt 128 rn, BitVec.ofInt 64 rd, x.diags⟩ := rfl
@[simp] theorem completeCommand_responses :
    (completeCommand s x rn rd).responses =
      s.responses ++ [⟨BitVec.ofInt 128 rn, BitVec.ofInt 64 rd, x.diags⟩] := rfl
end

@[simp] theorem resetBlock_raw (s : State) : (resetBlock s).raw = 0#32 := rfl
@[simp] theorem resetBlock_dsr (s : State) : (resetBlock s).dsr = 0#8 := rfl
@[simp] theorem resetBlock_inputs (s : State) : (resetBlock s).inputs = s.inputs := rfl
@[simp] theorem resetBlock_rsp (s : State) : (resetBlock s).rsp = none := rfl
@[simp] theorem resetBlock_responses (s : State) : (resetBlock s).responses = s.responses := rfl

@[simp] theorem idle_raw (s : State) : (idle s).raw = s.raw := rfl
@[simp] theorem idle_dsr (s : State) : (idle s).dsr = s.dsr := rfl
@[simp] theorem idle_inputs (s : State) : (idle s).inputs = s.inputs := rfl
@[simp] theorem idle_rsp (s : State) : (idle s).rsp = none := rfl
@[simp] theorem idle_responses (s : State) : (idle s).responses = s.responses := rfl

@[simp] theorem presentWord_raw (s : State) (w : CmdWord) : (presentWord s w).raw = s.raw := rfl
@[simp] theorem presentWord_dsr (s : State) (w : CmdWord) : (presentWord s w).dsr = s.dsr := rfl
@[simp] theorem presentWord_inputs (s : State) (w : CmdWord) : (presentWord s w).inputs = .command w :: s.inputs := rfl
@[simp] theorem presentWord_rsp (s : State) (w : CmdWord) : (presentWord s w).rsp = s.rsp := rfl
@[simp] theorem presentWord_responses (s : State) (w : CmdWord) : (presentWord s w).responses = s.responses := rfl

@[simp] theorem takeInput_raw (s : State) (rest : List HostInput) : (takeInput s rest).raw = s.raw := rfl
@[simp] theorem takeInput_dsr (s : State) (rest : List HostInput) : (takeInput s rest).dsr = s.dsr := rfl
@[simp] theorem takeInput_inputs (s : State) (rest : List HostInput) : (takeInput s rest).inputs = rest := rfl
@[simp] theorem takeInput_rsp (s : State) (rest : List HostInput) : (takeInput s rest).rsp = s.rsp := rfl
@[simp] theorem takeInput_responses (s : State) (rest : List HostInput) : (takeInput s rest).responses = s.responses := rfl

end Sys2Proof.Machine
end

