-- ==== Sys2Proof/Laws/Ops.lean ====
section
/-! SUPPORT. What each shared operation can do, said once: the helpers and guards by label bits, `setRaw`, `getRaw`, `report`,
and the end of a command. Proofs about commands cite these and unfold nothing. -/

namespace Sys2Proof.Machine

theorem boundsOK_iff_legalRange (f l : Nat) : boundsOK f l ↔ legalRange f l := by simp [boundsOK, legalRange]

theorem highestSetBit_lt_iff (v w : Nat) : highestSetBit v ≤ (w : Int) - 1 ↔ v < 2 ^ w := by
  unfold highestSetBit
  split
  · subst_vars; simp; omega
  · rename_i h
    rw [← Nat.log2_lt h]; omega

theorem fits_iff (v : Int) (w : Nat) : fits v w ↔ 0 ≤ v ∧ v < 2 ^ w := by
  unfold fits
  rw [highestSetBit_lt_iff]
  constructor
  · rintro ⟨h, h'⟩
    refine ⟨h, ?_⟩
    have : (v.toNat : Int) < ((2 ^ w : Nat) : Int) := by exact_mod_cast h'
    rw [Int.toNat_of_nonneg h] at this; simpa using this
  · rintro ⟨h, h'⟩
    refine ⟨h, ?_⟩
    have : (v.toNat : Int) < ((2 ^ w : Nat) : Int) := by rw [Int.toNat_of_nonneg h]; simpa using h'
    exact_mod_cast this

theorem labelBit_rangeMask {f l : Nat} (h : legalRange f l) {n : Nat} (hn : 1 ≤ n) (hn' : n ≤ 32) :
    labelBit (rangeMask f l) n = decide (f ≤ n ∧ n ≤ l) := by
  obtain ⟨h1, h2, h3⟩ := h
  have hw : l + 1 - f ≤ 32 := by omega
  simp only [labelBit, rangeMask, width, BitVec.getLsbD_shiftLeft, BitVec.getLsbD_ofNat, Nat.testBit_two_pow_sub_one]
  by_cases hf : f ≤ n <;> by_cases hl : n ≤ l <;> simp [hf, hl] <;> omega

theorem labelBit_maskRange (word : LabelWord) {f l : Nat} (h : legalRange f l) {n : Nat} (hn : 1 ≤ n) (hn' : n ≤ 32) :
    labelBit (maskRange word f l) n = (labelBit word n && decide (f ≤ n ∧ n ≤ l)) := by
  rw [← labelBit_rangeMask h hn hn']
  simp [labelBit, maskRange]

@[simp] theorem labelBit_zero (n : Nat) : labelBit 0#32 n = false := by simp [labelBit]

theorem label_ext {a b : LabelWord} (h : ∀ n, 1 ≤ n → n ≤ 32 → labelBit a n = labelBit b n) : a = b := by
  refine BitVec.eq_of_getLsbD_eq fun i hi => ?_
  simpa [labelBit] using h (i + 1) (by omega) (by omega)

theorem occupied_iff (raw : LabelWord) {f l : Nat} (h : legalRange f l) : occupied raw f l ↔ ¬ bitsFree raw f l := by
  unfold occupied
  rw [not_iff_not]
  constructor
  · intro h0 n hf hl
    have := labelBit_maskRange raw h (n := n) (by omega) (by omega)
    rw [h0] at this
    simpa [labelBit, hf, hl] using this.symm
  · intro h0
    refine label_ext fun n hn hn' => ?_
    rw [labelBit_maskRange raw h hn hn']
    by_cases hb : f ≤ n ∧ n ≤ l
    · simp [h0 n hb.1 hb.2, labelBit_zero]
    · simp [hb, labelBit_zero]

theorem labelBit_orField (raw : LabelWord) {v f l : Nat} (h : legalRange f l) (hv : v < 2 ^ (l + 1 - f))
    {n : Nat} (hn : 1 ≤ n) (hn' : n ≤ 32) :
    labelBit (orField raw v f) n = (labelBit raw n || (decide (f ≤ n ∧ n ≤ l) && v.testBit (n - f))) := by
  obtain ⟨h1, h2, h3⟩ := h
  have hgt : ∀ i, l + 1 - f ≤ i → v.testBit i = false := fun i hi =>
    Nat.testBit_lt_two_pow (lt_of_lt_of_le hv (Nat.pow_le_pow_right (by norm_num) hi))
  simp only [labelBit, orField, BitVec.getLsbD_or, BitVec.getLsbD_shiftLeft, BitVec.getLsbD_ofNat]
  by_cases hf : f ≤ n
  · have e : n - 1 - (f - 1) = n - f := by omega
    rw [e]
    by_cases hl : n ≤ l
    · have a1 : n - 1 < 32 := by omega
      have a2 : n - f < 32 := by omega
      have a3 : ¬ n - 1 < f - 1 := by omega
      simp [hf, hl, a1, a2, a3]
    · rw [hgt (n - f) (by omega)]; simp [hl]
  · have a3 : n - 1 < f - 1 := by omega
    simp [hf, a3]

theorem fieldOf_testBit (raw : LabelWord) {f l : Nat} (h : legalRange f l) (i : Nat) :
    (fieldOf raw f l).testBit i = (decide (i < l + 1 - f) && labelBit raw (f + i)) := by
  obtain ⟨h1, h2, h3⟩ := h
  have e : f + i - 1 = f - 1 + i := by omega
  simp only [fieldOf, labelBit, width, BitVec.testBit_toNat, BitVec.getLsbD_and, BitVec.getLsbD_ushiftRight,
    BitVec.getLsbD_ofNat, Nat.testBit_two_pow_sub_one, e]
  by_cases hi : i < l + 1 - f
  · have : i < 32 := by omega
    simp [hi, this]
  · simp [hi]

theorem fieldOf_lt (raw : LabelWord) {f l : Nat} (h : legalRange f l) : fieldOf raw f l < 2 ^ (l + 1 - f) :=
  Nat.lt_pow_two_of_testBit _ fun i hi => by
    rw [fieldOf_testBit raw h]; simp; omega

theorem fieldHolds_fieldOf (raw : LabelWord) {f l : Nat} (h : legalRange f l) :
    fieldHolds raw f l (fieldOf raw f l) := by
  intro n hf hl
  rw [fieldOf_testBit raw h]
  have e : f + (n - f) = n := by omega
  have : n - f < l + 1 - f := by omega
  simp [e, this]

/-- From `x` to `y` a command in progress has reported exactly `ds`: the list grew by `ds` and its flags were set. -/
def reported (x y : InFlight) (ds : List Diag) : Prop := y.diags = x.diags ++ ds ∧ y.dsr = ds.foldl setFlag x.dsr

theorem reported_nil (x : InFlight) : reported x x [] := ⟨by simp, rfl⟩
theorem reported_one (e : Diag) (x : InFlight) : reported x (report e x) [e] := ⟨rfl, rfl⟩
theorem reported_trans {x y z : InFlight} {ds es : List Diag} (h : reported x y ds) (h' : reported y z es) :
    reported x z (ds ++ es) := by
  refine ⟨by rw [h'.1, h.1, List.append_assoc], by rw [h'.2, h.2, List.foldl_append]⟩

theorem setRaw_out_of_bounds {v : Int} {f l : Nat} {x : InFlight} (hb : ¬ legalRange f l) :
    setRaw v f l x = report .rangeError x := if_pos hb

theorem setRaw_too_wide {v : Int} {f l : Nat} {x : InFlight} (hb : legalRange f l)
    (hv : ¬ (0 ≤ v ∧ v < 2 ^ (l + 1 - f))) : setRaw v f l x = report .valueTooWideError x :=
  (if_neg (not_not.2 hb)).trans (if_pos ((fits_iff v _).not.2 hv))

theorem setRaw_occupied {v : Int} {f l : Nat} {x : InFlight} (hb : legalRange f l)
    (hv : 0 ≤ v ∧ v < 2 ^ (l + 1 - f)) (ho : ¬ bitsFree x.raw f l) : setRaw v f l x = report .rangeOccupiedError x :=
  (if_neg (not_not.2 hb)).trans <| (if_neg (not_not.2 ((fits_iff v _).2 hv))).trans (if_pos ((occupied_iff _ hb).2 ho))

theorem setRaw_success {v : Int} {f l : Nat} {x : InFlight} (hb : legalRange f l)
    (hv : 0 ≤ v ∧ v < 2 ^ (l + 1 - f)) (ho : bitsFree x.raw f l) :
    setRaw v f l x = { x with raw := orField x.raw v.toNat f } :=
  (if_neg (not_not.2 hb)).trans <| (if_neg (not_not.2 ((fits_iff v _).2 hv))).trans <|
    if_neg ((occupied_iff _ hb).not.2 (not_not.2 ho))

theorem setRaw_spec (v : Int) (f l : Nat) (x : InFlight) :
    ∃ ds, reported x (setRaw v f l x) ds ∧ writeEffect x.raw v f l (setRaw v f l x).raw ds := by
  by_cases hb : legalRange f l
  swap
  · rw [setRaw_out_of_bounds hb]
    exact ⟨_, reported_one _ _, fun _ => ⟨rfl, rfl⟩, fun h => absurd h hb, fun h => absurd h hb, fun h => absurd h hb⟩
  by_cases hv : 0 ≤ v ∧ v < 2 ^ (l + 1 - f)
  swap
  · rw [setRaw_too_wide hb hv]
    exact ⟨_, reported_one _ _, fun h => absurd hb h, fun _ _ => ⟨rfl, rfl⟩, fun _ h0 h1 => absurd ⟨h0, h1⟩ hv,
      fun _ h0 h1 => absurd ⟨h0, h1⟩ hv⟩
  by_cases ho : bitsFree x.raw f l
  swap
  · rw [setRaw_occupied hb hv ho]
    exact ⟨_, reported_one _ _, fun h => absurd hb h, fun _ h => absurd hv h, fun _ _ _ _ => ⟨rfl, rfl⟩,
      fun _ _ _ h => absurd h ho⟩
  have hlt : v.toNat < 2 ^ (l + 1 - f) := by
    have : (v.toNat : Int) < ((2 ^ (l + 1 - f) : Nat) : Int) := by rw [Int.toNat_of_nonneg hv.1]; simpa using hv.2
    exact_mod_cast this
  rw [setRaw_success hb hv ho]
  refine ⟨[], ⟨by simp, rfl⟩, fun h => absurd hb h, fun _ h => absurd hv h, fun _ _ _ h => absurd ho h,
    fun _ _ _ _ => ⟨fun n hf hl => ?_, fun n hn hn' hout => ?_, rfl⟩⟩
  · have h1 := hb.1
    have h3 := hb.2.2
    rw [labelBit_orField x.raw hb hlt (by omega) (by omega), ho n hf hl]
    simp [hf, hl]
  · rw [labelBit_orField x.raw hb hlt hn hn']
    simp [hout]

theorem getRaw_out_of_bounds {f l : Nat} {x : InFlight} (hb : ¬ legalRange f l) :
    getRaw f l x = (0, report .rangeError x) := if_pos hb

theorem getRaw_success {f l : Nat} {x : InFlight} (hb : legalRange f l) : getRaw f l x = (fieldOf x.raw f l, x) :=
  if_neg (not_not.2 hb)

theorem getRaw_spec (f l : Nat) (x : InFlight) :
    ∃ ds, reported x (getRaw f l x).2 ds ∧ (getRaw f l x).2.raw = x.raw ∧ readEffect x.raw f l (getRaw f l x).1 ds := by
  by_cases hb : legalRange f l
  · rw [getRaw_success hb]
    exact ⟨[], reported_nil x, rfl, fun h => absurd hb h, fun _ => ⟨fieldOf_lt x.raw hb, fieldHolds_fieldOf x.raw hb, rfl⟩⟩
  · rw [getRaw_out_of_bounds hb]
    exact ⟨[.rangeError], reported_one _ _, rfl, fun _ => ⟨rfl, rfl⟩, fun h => absurd h hb⟩

theorem getLsbD_setFlag (d : DsrWord) (a e : Diag) :
    (setFlag d a).getLsbD (dsrBitOf e) = (d.getLsbD (dsrBitOf e) || decide (e = a)) := by
  cases a <;> cases e <;> simp [setFlag, flagMask, flagIndex, diagCode, dsrBitOf]

theorem flagsAfter_foldl (d : DsrWord) (ds : List Diag) : flagsAfter d (ds.foldl setFlag d) ds := by
  induction ds generalizing d with
  | nil => intro e; simp
  | cons a ds ih =>
    intro e
    rw [List.foldl_cons, ih (setFlag d a) e, getLsbD_setFlag]
    by_cases h : e = a <;> simp [h]

theorem commandEnds_complete {s : State} {x : InFlight} {ds : List Diag} (h : reported (startCommand s) x ds)
    {rn rd : Int} (hn : (BitVec.ofInt 128 rn).toInt = rn) (hd : (BitVec.ofInt 64 rd).toInt = rd) :
    commandEnds s (completeCommand s x rn rd) rn rd ds := by
  refine ⟨?_, rfl, _, rfl, rfl, hn, hd, by simpa using h.1⟩
  rw [completeCommand_dsr, h.2]
  exact flagsAfter_foldl _ _

theorem warnOverlap_spec (f l sb : Nat) (x : InFlight) :
    (warnOverlap f l sb x).raw = x.raw ∧
    reported x (warnOverlap f l sb x) (if f ≤ sb ∧ sb ≤ l then [.signBitOverlapError] else []) := by
  unfold warnOverlap
  split
  · exact ⟨rfl, reported_one _ _⟩
  · exact ⟨rfl, reported_nil _⟩

theorem writeBnr_spec (encoded : Int) (f l sb : Nat) (x : InFlight) :
    ∃ mid ds es, reported x (writeBnr encoded f l sb x) (ds ++ es) ∧
      writeEffect x.raw encoded.natAbs f l mid ds ∧
      writeEffect mid (if encoded < 0 then 1 else 0) sb sb (writeBnr encoded f l sb x).raw es := by
  obtain ⟨ds, h1, h2⟩ := setRaw_spec encoded.natAbs f l x
  obtain ⟨es, h3, h4⟩ := setRaw_spec (if encoded < 0 then 1 else 0) sb sb (setRaw encoded.natAbs f l x)
  exact ⟨_, ds, es, reported_trans h1 h3, h2, h4⟩

theorem capacity_lt_iff (f l n : Nat) : capacity f l < n ↔ 2 ^ (l + 1 - f) ≤ n := by
  have : 0 < 2 ^ (l + 1 - f) := Nat.two_pow_pos _
  unfold capacity width
  omega

theorem setBcdDigit_spec (d : Int) (f l : Nat) (x : InFlight) :
    ((d < 0 ∨ 2 ^ (l + 1 - f) ≤ d) → setBcdDigit d f l x = report .digitOutOfRangeError x) ∧
    (¬ (d < 0 ∨ 2 ^ (l + 1 - f) ≤ d) → setBcdDigit d f l x = setRaw d f l x) := by
  have key : (d < 0 ∨ (capacity f l : Int) < d) ↔ (d < 0 ∨ 2 ^ (l + 1 - f) ≤ d) := by
    have h : 0 < 2 ^ (l + 1 - f) := Nat.two_pow_pos _
    have e : ((2 ^ (l + 1 - f) : Nat) : Int) = 2 ^ (l + 1 - f) := by push_cast; rfl
    rw [← e]
    unfold capacity width
    omega
  exact ⟨fun h => if_pos (key.2 h), fun h => if_neg (key.not.2 h)⟩

/-- A group's digit, seen inside the group. -/
theorem setBcdDigit_group (d p h : Nat) (x : InFlight) :
    ∃ ds, reported x (setBcdDigit (d : Int) p h x) ds ∧ digitEffect x.raw d p h (setBcdDigit (d : Int) p h x).raw ds ∧
      sameOutside x.raw (setBcdDigit (d : Int) p h x).raw p h := by
  have e : ((2 ^ (h + 1 - p) : Nat) : Int) = 2 ^ (h + 1 - p) := by push_cast; rfl
  by_cases hd : 2 ^ (h + 1 - p) ≤ d
  · rw [(setBcdDigit_spec d p h x).1 (Or.inr (by rw [← e]; exact_mod_cast hd))]
    exact ⟨_, reported_one _ _, ⟨fun _ => ⟨fun _ _ _ => rfl, rfl⟩, fun h' => absurd hd (not_le.2 h'),
      fun h' => absurd hd (not_le.2 h'), fun h' => absurd hd (not_le.2 h')⟩, fun _ _ _ _ => rfl⟩
  have hd' : d < 2 ^ (h + 1 - p) := not_le.1 hd
  have hz : (d : Int) < 2 ^ (h + 1 - p) := by rw [← e]; exact_mod_cast hd'
  rw [(setBcdDigit_spec d p h x).2 (by omega)]
  obtain ⟨ds, h1, w1, w2, w3, w4⟩ := setRaw_spec d p h x
  by_cases hb : legalRange p h
  · by_cases ho : bitsFree x.raw p h
    · obtain ⟨a, b, c⟩ := w4 hb (Int.natCast_nonneg d) hz ho
      exact ⟨ds, h1, ⟨fun h' => absurd h' hd, fun _ h' => absurd hb h', fun _ _ h' => absurd ho h', fun _ _ _ => ⟨a, c⟩⟩, b⟩
    · obtain ⟨a, c⟩ := w3 hb (Int.natCast_nonneg d) hz ho
      refine ⟨ds, h1, ⟨fun h' => absurd h' hd, fun _ h' => absurd hb h', fun _ _ _ => ⟨?_, c⟩, fun _ _ h' => absurd h' ho⟩, ?_⟩ <;>
      · rw [a]; intros _ _ _; intros; rfl
  · obtain ⟨a, c⟩ := w1 hb
    refine ⟨ds, h1, ⟨fun h' => absurd h' hd, fun _ _ => ⟨?_, c⟩, fun _ h' => absurd h' hb, fun _ h' => absurd h' hb⟩, ?_⟩ <;>
    · rw [a]; intros _ _ _; intros; rfl

end Sys2Proof.Machine
end

