-- ==== Sys2Proof/Laws/Bcd.lean ====
section
/-! SUPPORT. What the two BCD loops can do, said once over all groups (44_bcd.md R163, R164). -/

namespace Sys2Proof.Machine

/-- Group `k` of the field `[f, l]` (44_bcd.md R160). -/
def bcdGroup (f l k : Nat) : Nat × Nat := (f + 4 * k, min (f + 4 * k + 3) l)

theorem bcdGroups_eq (f l : Nat) : bcdGroups f l = (List.range' 0 ((l + 1 - f + 3) / 4)).map (bcdGroup f l) := by
  simp [bcdGroups, width, bcdGroup, List.range_eq_range']

theorem labelBit_high (word : LabelWord) {n : Nat} (h : 32 < n) : labelBit word n = false :=
  BitVec.getLsbD_of_ge _ _ (by omega)

/-- Two words that agree outside a range agree on every range that has no bit in common with it. Bit number 0 stands for bit 1
(`labelBit` of an illegal number), hence the last premise. -/
theorem sameInside_of_sameOutside {a b : LabelWord} {f l p h : Nat} (hs : sameOutside a b f l)
    (hd : ∀ n, p ≤ n → n ≤ h → n ≤ 32 → ¬ (f ≤ n ∧ n ≤ l)) (h0 : p = 0 → ¬ (f ≤ 1 ∧ 1 ≤ l)) : sameInside a b p h := by
  intro n hp hh
  by_cases hn : n ≤ 32
  · rcases Nat.eq_zero_or_pos n with rfl | hpos
    · exact hs 1 le_rfl (by norm_num) (h0 (by omega))
    · exact hs n hpos hn (hd n hp hh hn)
  · rw [labelBit_high _ (by omega), labelBit_high _ (by omega)]

theorem sameInside_trans {a b c : LabelWord} {p h : Nat} (h1 : sameInside a b p h) (h2 : sameInside b c p h) :
    sameInside a c p h := fun n hp hh => (h2 n hp hh).trans (h1 n hp hh)

theorem bitsFree_congr {a b : LabelWord} {p h : Nat} (hs : sameInside a b p h) : bitsFree b p h ↔ bitsFree a p h :=
  ⟨fun hb n hp hh => (hs n hp hh).symm.trans (hb n hp hh), fun ha n hp hh => (hs n hp hh).trans (ha n hp hh)⟩

/-- A group's effect may be seen before a change that leaves the group alone. -/
theorem digitEffect_then {a b c : LabelWord} {d p h : Nat} {ds : List Diag} (he : digitEffect a d p h b ds)
    (hs : sameInside b c p h) : digitEffect a d p h c ds := by
  obtain ⟨e1, e2, e3, e4⟩ := he
  exact ⟨fun x => ⟨sameInside_trans (e1 x).1 hs, (e1 x).2⟩, fun x y => ⟨sameInside_trans (e2 x y).1 hs, (e2 x y).2⟩,
    fun x y z => ⟨sameInside_trans (e3 x y z).1 hs, (e3 x y z).2⟩,
    fun x y z => ⟨fun n hp hh => (hs n hp hh).trans ((e4 x y z).1 n hp hh), (e4 x y z).2⟩⟩

/-- A group's effect may be seen after a change that leaves the group alone. -/
theorem digitEffect_after {a b c : LabelWord} {d p h : Nat} {ds : List Diag} (hs : sameInside a b p h)
    (he : digitEffect b d p h c ds) : digitEffect a d p h c ds := by
  obtain ⟨e1, e2, e3, e4⟩ := he
  rw [bitsFree_congr hs] at e3 e4
  exact ⟨fun x => ⟨sameInside_trans hs (e1 x).1, (e1 x).2⟩, fun x y => ⟨sameInside_trans hs (e2 x y).1, (e2 x y).2⟩,
    fun x y z => ⟨sameInside_trans hs (e3 x y z).1, (e3 x y z).2⟩, e4⟩

/-- The writing loop over `m` groups from group `k` on: what is left of the value, and the effect on each group, each seen from
the word the loop started with. -/
theorem setBcdGroups_spec (f l : Nat) : ∀ (m k rem : Nat) (x : InFlight), m = 0 ∨ f + 4 * (k + m) ≤ l + 4 →
    (setBcdGroups ((List.range' k m).map (bcdGroup f l)) rem x).1 = rem / 10 ^ m ∧
    ∃ dss : List (List Diag), dss.length = m ∧
      reported x (setBcdGroups ((List.range' k m).map (bcdGroup f l)) rem x).2 dss.flatten ∧
      (∀ j, j < m → digitEffect x.raw (rem / 10 ^ j % 10) (f + 4 * (k + j)) (min (f + 4 * (k + j) + 3) l)
        (setBcdGroups ((List.range' k m).map (bcdGroup f l)) rem x).2.raw (dss.getD j [])) ∧
      sameOutside x.raw (setBcdGroups ((List.range' k m).map (bcdGroup f l)) rem x).2.raw (f + 4 * k)
        (min (f + 4 * (k + m) - 1) l) := by
  intro m
  induction m with
  | zero =>
    intro k rem x _
    exact ⟨by simp [setBcdGroups], [], rfl, ⟨by simp [setBcdGroups], rfl⟩, by simp, fun _ _ _ _ => rfl⟩
  | succ m ih =>
    intro k rem x hle
    obtain ⟨ds, r1, d1, o1⟩ := setBcdDigit_group (rem % 10) (f + 4 * k) (min (f + 4 * k + 3) l) x
    set y := setBcdDigit ((rem % 10 : Nat) : Int) (f + 4 * k) (min (f + 4 * k + 3) l) x with hy
    obtain ⟨e1, dss, hlen, r2, d2, o2⟩ := ih (k + 1) (rem / 10) y (by omega)
    have hs : setBcdGroups ((List.range' k (m + 1)).map (bcdGroup f l)) rem x =
        setBcdGroups ((List.range' (k + 1) m).map (bcdGroup f l)) (rem / 10) y := by
      rw [List.range'_succ, List.map_cons]; rfl
    rw [hs]
    set out := setBcdGroups ((List.range' (k + 1) m).map (bcdGroup f l)) (rem / 10) y
    refine ⟨by rw [e1, Nat.div_div_eq_div_mul, pow_succ'], ds :: dss, by simp [hlen], ?_, ?_, ?_⟩
    · rw [List.flatten_cons]; exact reported_trans r1 r2
    · intro j hj
      cases j with
      | zero =>
        have hin : sameInside y.raw out.2.raw (f + 4 * k) (min (f + 4 * k + 3) l) :=
          sameInside_of_sameOutside o2 (by intros; omega) (by intros; omega)
        simpa using digitEffect_then d1 hin
      | succ j =>
        have hxy : sameInside x.raw y.raw (f + 4 * (k + (j + 1))) (min (f + 4 * (k + (j + 1)) + 3) l) :=
          sameInside_of_sameOutside o1 (by intros; omega) (by intros; omega)
        have hd := d2 j (by omega)
        rw [show rem / 10 / 10 ^ j = rem / 10 ^ (j + 1) by rw [Nat.div_div_eq_div_mul, pow_succ'],
          show k + 1 + j = k + (j + 1) by omega] at hd
        simpa using digitEffect_after hxy hd
    · intro n p q w
      rw [o2 n p q (by omega), o1 n p q (by omega)]

/-- The reading loop over `m` groups from group `k` on: `raw` stays, and the sum grows by each group's reading times its power
of ten. -/
theorem getBcdGroups_spec (f l : Nat) : ∀ (m k acc : Nat) (x : InFlight),
    ∃ (gs : List Nat) (dss : List (List Diag)), gs.length = m ∧ dss.length = m ∧
      (getBcdGroups ((List.range' k m).map (bcdGroup f l)) k acc x).1 =
        acc + ((List.range m).map fun j => gs.getD j 0 * 10 ^ (k + j)).sum ∧
      (getBcdGroups ((List.range' k m).map (bcdGroup f l)) k acc x).2.raw = x.raw ∧
      reported x (getBcdGroups ((List.range' k m).map (bcdGroup f l)) k acc x).2 dss.flatten ∧
      ∀ j, j < m → readEffect x.raw (f + 4 * (k + j)) (min (f + 4 * (k + j) + 3) l) (gs.getD j 0) (dss.getD j []) := by
  intro m
  induction m with
  | zero =>
    intro k acc x
    exact ⟨[], [], rfl, rfl, by simp [getBcdGroups], by simp [getBcdGroups], ⟨by simp [getBcdGroups], rfl⟩, by simp⟩
  | succ m ih =>
    intro k acc x
    obtain ⟨ds, r1, h1, d1⟩ := getRaw_spec (f + 4 * k) (min (f + 4 * k + 3) l) x
    set got := getRaw (f + 4 * k) (min (f + 4 * k + 3) l) x with hg
    obtain ⟨gs, dss, l1, l2, e, h2, r2, d2⟩ := ih (k + 1) (acc + got.1 * 10 ^ k) got.2
    have hs : getBcdGroups ((List.range' k (m + 1)).map (bcdGroup f l)) k acc x =
        getBcdGroups ((List.range' (k + 1) m).map (bcdGroup f l)) (k + 1) (acc + got.1 * 10 ^ k) got.2 := by
      rw [List.range'_succ, List.map_cons]; rfl
    rw [hs]
    refine ⟨got.1 :: gs, ds :: dss, by simp [l1], by simp [l2], ?_, by rw [h2, h1], ?_, ?_⟩
    · rw [e, List.range_succ_eq_map, List.map_cons, List.sum_cons, List.map_map, Nat.add_assoc]
      have : ∀ j, k + 1 + j = k + (j + 1) := fun j => by omega
      simp [Function.comp_def, this]
    · rw [List.flatten_cons]; exact reported_trans r1 r2
    · intro j hj
      cases j with
      | zero => simpa using d1
      | succ j =>
        have hd := d2 j (by omega)
        rw [h1, show k + 1 + j = k + (j + 1) by omega] at hd
        simpa using hd

end Sys2Proof.Machine
end

