-- ==== Sys2Proof/Laws/Decode.lean ====
section
/-! SUPPORT. The command word and its fields: splitting undoes joining, and each field is the number at its position. -/

set_option exponentiation.threshold 400

namespace Sys2Proof

open Sys2Proof.Machine

theorem extract_append_low {n m : Nat} (x : BitVec n) (y : BitVec m) {lo len : Nat} (h : lo + len ≤ m) :
    (x ++ y).extractLsb' lo len = y.extractLsb' lo len := by
  refine BitVec.eq_of_getLsbD_eq fun i hi => ?_
  simp only [BitVec.getLsbD_extractLsb', BitVec.getLsbD_append, hi]
  simp [show lo + i < m by omega]

theorem extract_append_high {n m : Nat} (x : BitVec n) (y : BitVec m) {lo len : Nat} (h : m ≤ lo) :
    (x ++ y).extractLsb' lo len = x.extractLsb' (lo - m) len := by
  refine BitVec.eq_of_getLsbD_eq fun i hi => ?_
  simp only [BitVec.getLsbD_extractLsb', BitVec.getLsbD_append, hi]
  simp [show ¬ lo + i < m by omega, show lo + i - m = lo - m + i by omega]

theorem splitWord_joinFields (x : Fields) : splitWord (joinFields x) = x := by
  obtain ⟨op, fb, lb, sb, rsv, a, b, c, d⟩ := x
  have key : ∀ lo len, (joinFields ⟨op, fb, lb, sb, rsv, a, b, c, d⟩).extractLsb' lo len =
      (d ++ c ++ b ++ a ++ (rsv ++ sb ++ lb ++ fb ++ op)).extractLsb' lo len := fun _ _ => rfl
  simp only [splitWord, key, Fields.mk.injEq]
  simp (disch := omega) only [extract_append_low, extract_append_high]
  simp

theorem toNat_extract (w : CmdWord) (lo len : Nat) : (w.extractLsb' lo len).toNat = cmdBits w lo len := by
  simp [cmdBits, Nat.shiftRight_eq_div_pow]

theorem decode_encode_fields (i : Instr) : decode (encode i) = decodeFields (encodeFields i) := by
  rw [decode, encode, splitWord_joinFields]

theorem toInt_intField {v : Int} (h : intEncodable v = true) : (intField v).toInt = v := by
  simp [intEncodable] at h
  rw [intField, BitVec.toInt_ofInt, Int.bmod_eq_of_le] <;> norm_num at * <;> omega

theorem toNat_bitField {n : Nat} (h : bitEncodable n = true) : (bitField n).toNat = n := by
  simp [bitEncodable] at h
  rw [bitField, BitVec.toNat_ofNat, Nat.mod_eq_of_lt h]

end Sys2Proof
end

