-- ==== Sys2Proof/Laws/Commands.lean ====
section
/-! SUPPORT. How a command ends and what a step can be, said once. -/

namespace Sys2Proof.Machine

theorem toInt_rn_zero : (BitVec.ofInt 128 0).toInt = 0 := by decide

theorem toInt_rd_one : (BitVec.ofInt 64 1).toInt = 1 := by decide

/-- A numerator of absolute value below `2^100` is shown unchanged on the 128-bit port. -/
theorem toInt_rn {v : Int} (h : -(2 ^ 100) < v) (h' : v < 2 ^ 100) : (BitVec.ofInt 128 v).toInt = v := by
  rw [BitVec.toInt_ofInt]
  refine Int.bmod_eq_of_le ?_ ?_
  · norm_num at *; omega
  · norm_num at *; omega

/-- A command that is one write. -/
theorem writeField_spec (v : Int) (f l : Nat) (s : State) :
    ∃ t ds, writeField v f l s = .next t ∧ writeEffect s.raw v f l t.raw ds ∧ commandEnds s t 0 1 ds := by
  obtain ⟨ds, h, h'⟩ := setRaw_spec v f l (startCommand s)
  exact ⟨_, ds, rfl, h', commandEnds_complete h toInt_rn_zero toInt_rd_one⟩

/-- A command that is one read. -/
theorem readField_spec (f l : Nat) (s : State) :
    ∃ t v ds, readField f l s = .next t ∧ t.raw = s.raw ∧ readEffect s.raw f l v ds ∧ commandEnds s t v 1 ds := by
  obtain ⟨ds, h, h', h''⟩ := getRaw_spec f l (startCommand s)
  have hv : (getRaw f l (startCommand s)).1 < 2 ^ 32 := by
    by_cases hb : legalRange f l
    · have h1 := hb.1
      have h3 := hb.2.2
      exact lt_of_lt_of_le (h''.2 hb).1 (Nat.pow_le_pow_right (by norm_num) (by omega))
    · rw [(h''.1 hb).1]; norm_num
  exact ⟨_, _, ds, rfl, h', h'', commandEnds_complete h (toInt_rn (by omega) (by omega)) toInt_rd_one⟩

/-- The illegal command. -/
theorem illegalCommand_spec (s : State) :
    ∃ t, illegalCommand s = .next t ∧ t.raw = s.raw ∧ commandEnds s t 0 1 [.illegalCommandError] :=
  ⟨_, rfl, rfl, commandEnds_complete (reported_one _ _) toInt_rn_zero toInt_rd_one⟩

/-- Every command ends with the registers of some command in progress and one response. -/
theorem exec_completes (i : Instr) (s : State) :
    ∃ x rn rd, exec i s = .next (completeCommand s x rn rd) := by
  cases i
  case setpar p =>
    show ∃ x rn rd, execSetpar p s = _
    unfold execSetpar
    split <;> exact ⟨_, _, _, rfl⟩
  case setbnr v r f l sb =>
    show ∃ x rn rd, execSetbnr v r f l sb s = _
    unfold execSetbnr
    split <;> exact ⟨_, _, _, rfl⟩
  case getbnr r f l sb =>
    show ∃ x rn rd, execGetbnr r f l sb s = _
    unfold execGetbnr
    split <;> exact ⟨_, _, _, rfl⟩
  all_goals exact ⟨_, _, _, rfl⟩

/-- What a step can be: waiting, a reset, a command, or the illegal command. -/
theorem step_cases {s t : State} (h : step s = .next t) :
    (s.inputs = [] ∧ t = idle s) ∨
    (∃ rest, s.inputs = .reset :: rest ∧ t = resetBlock (takeInput s rest)) ∨
    (∃ w rest i, s.inputs = .command w :: rest ∧ decode w = .command i ∧ exec i (takeInput s rest) = .next t) ∨
    (∃ w rest why, s.inputs = .command w :: rest ∧ decode w = .illegal why ∧ illegalCommand (takeInput s rest) = .next t) := by
  unfold step runNext at h
  split at h
  · rename_i hi
    exact .inl ⟨hi, by cases h; rfl⟩
  · rename_i a rest hi
    cases a with
    | reset => exact .inr (.inl ⟨rest, hi, by cases h; rfl⟩)
    | command w =>
      simp only [runInput, runWord] at h
      split at h
      · rename_i i hw
        exact .inr (.inr (.inl ⟨w, rest, i, hi, hw, h⟩))
      · rename_i why hw
        exact .inr (.inr (.inr ⟨w, rest, why, hi, hw, h⟩))

end Sys2Proof.Machine
end

