-- ==== Sys2Proof/Laws/PerInstr.lean ====
section
/-! SUPPORT. Facts about every command as syntax, one lemma per constructor: the header of its canonical word matches its row
of spec/opcode_table.json (`cmd & 0xFC0000FF == match`, 30_encoding.md R64). -/

namespace Sys2Proof.Laws.TableHeader

open Sys2Proof Sys2Proof.Machine

/-- The canonical word has the command's opcode in `OP` and 0 in `RSV`. -/
def Statement (i : Instr) : Prop := cmdBits (encode i) 0 8 = (opcode i).toNat ∧ cmdBits (encode i) 26 6 = 0

theorem of_fields {i : Instr} (h : (encodeFields i).op = opcode i) (h' : (encodeFields i).rsv = 0#6) : Statement i := by
  refine ⟨?_, ?_⟩ <;> rw [← toNat_extract]
  · exact congrArg BitVec.toNat ((congrArg Fields.op (splitWord_joinFields (encodeFields i))).trans h)
  · exact congrArg BitVec.toNat ((congrArg Fields.rsv (splitWord_joinFields (encodeFields i))).trans h')

theorem setraw (v : Int) (f l : Nat) : Statement (.setraw v f l) := of_fields rfl rfl
theorem getraw (f l : Nat) : Statement (.getraw f l) := of_fields rfl rfl
theorem setid (v : Int) : Statement (.setid v) := of_fields rfl rfl
theorem getid : Statement .getid := of_fields rfl rfl
theorem setsdi (v : Int) : Statement (.setsdi v) := of_fields rfl rfl
theorem getsdi : Statement .getsdi := of_fields rfl rfl
theorem setssm (v : Int) : Statement (.setssm v) := of_fields rfl rfl
theorem getssm : Statement .getssm := of_fields rfl rfl
theorem setpar (p : Int) : Statement (.setpar p) := of_fields rfl rfl
theorem getpar : Statement .getpar := of_fields rfl rfl
theorem setbnr (v r : Ratio) (f l sb : Nat) : Statement (.setbnr v r f l sb) := of_fields rfl rfl
theorem getbnr (r : Ratio) (f l sb : Nat) : Statement (.getbnr r f l sb) := of_fields rfl rfl
theorem setbcdd (d : Int) (f l : Nat) : Statement (.setbcdd d f l) := of_fields rfl rfl
theorem setbcd (v r : Int) (f l : Nat) : Statement (.setbcd v r f l) := of_fields rfl rfl
theorem getbcd (r : Int) (f l : Nat) : Statement (.getbcd r f l) := of_fields rfl rfl
theorem setdisc (v : Int) (f l : Nat) : Statement (.setdisc v f l) := of_fields rfl rfl
theorem getdisc (f l : Nat) : Statement (.getdisc f l) := of_fields rfl rfl
theorem setdbit (v : Int) (b : Nat) : Statement (.setdbit v b) := of_fields rfl rfl
theorem getdbit (b : Nat) : Statement (.getdbit b) := of_fields rfl rfl
theorem clr : Statement .clr := of_fields rfl rfl
theorem getword : Statement .getword := of_fields rfl rfl
theorem getdsr : Statement .getdsr := of_fields rfl rfl
theorem clrdsr : Statement .clrdsr := of_fields rfl rfl

end Sys2Proof.Laws.TableHeader
end

