-- ==== Sys2Proof/Tests/Slice0.lean ====
section
/-! SUPPORT. Tests: the WellFormed smoke, words written out from the spec's encodings, one or two vectors per command
(95_test_vectors.md, 96_test_vectors_families.md), and a witness for the hypotheses of each statement. -/

set_option exponentiation.threshold 400

namespace Sys2Proof.Tests

open Sys2Proof Sys2Proof.Machine

/-! ### WellFormed refuses an ill-formed term at each check -/

theorem test_int_bounds : intEncodable (2 ^ 63 - 1) = true ∧ intEncodable (-(2 ^ 63)) = true ∧
    intEncodable (2 ^ 63) = false ∧ intEncodable (-(2 ^ 63) - 1) = false := by decide

theorem test_bit_bounds : bitEncodable 0 = true ∧ bitEncodable 63 = true ∧ bitEncodable 64 = false := by decide

theorem test_wf_setraw : (Instr.setraw (2 ^ 63) 1 1).wf = false ∧ (Instr.setraw 0 64 1).wf = false ∧
    (Instr.setraw 0 1 64).wf = false := by decide

theorem test_wf_reads : (Instr.getraw 64 1).wf = false ∧ (Instr.getraw 1 64).wf = false ∧
    (Instr.getdisc 64 1).wf = false ∧ (Instr.getdisc 1 64).wf = false ∧ (Instr.getdbit 64).wf = false := by decide

theorem test_wf_fixed : (Instr.setid (2 ^ 63)).wf = false ∧ (Instr.setsdi (-(2 ^ 63) - 1)).wf = false ∧
    (Instr.setssm (2 ^ 63)).wf = false ∧ (Instr.setpar (2 ^ 63)).wf = false := by decide

theorem test_wf_setbnr : (Instr.setbnr ⟨2 ^ 63, 1⟩ ⟨1, 1⟩ 1 1 1).wf = false ∧
    (Instr.setbnr ⟨1, 2 ^ 63⟩ ⟨1, 1⟩ 1 1 1).wf = false ∧ (Instr.setbnr ⟨1, 1⟩ ⟨2 ^ 63, 1⟩ 1 1 1).wf = false ∧
    (Instr.setbnr ⟨1, 1⟩ ⟨1, 2 ^ 63⟩ 1 1 1).wf = false ∧ (Instr.setbnr ⟨1, 1⟩ ⟨1, 1⟩ 64 1 1).wf = false ∧
    (Instr.setbnr ⟨1, 1⟩ ⟨1, 1⟩ 1 64 1).wf = false ∧ (Instr.setbnr ⟨1, 1⟩ ⟨1, 1⟩ 1 1 64).wf = false := by decide

theorem test_wf_getbnr : (Instr.getbnr ⟨2 ^ 63, 1⟩ 1 1 1).wf = false ∧ (Instr.getbnr ⟨1, 2 ^ 63⟩ 1 1 1).wf = false ∧
    (Instr.getbnr ⟨1, 1⟩ 64 1 1).wf = false ∧ (Instr.getbnr ⟨1, 1⟩ 1 64 1).wf = false ∧
    (Instr.getbnr ⟨1, 1⟩ 1 1 64).wf = false := by decide

theorem test_wf_bcd : (Instr.setbcdd (2 ^ 63) 1 1).wf = false ∧ (Instr.setbcdd 0 64 1).wf = false ∧
    (Instr.setbcdd 0 1 64).wf = false ∧ (Instr.setbcd (2 ^ 63) 10 1 1).wf = false ∧
    (Instr.setbcd 0 (2 ^ 63) 1 1).wf = false ∧ (Instr.setbcd 0 10 64 1).wf = false ∧
    (Instr.setbcd 0 10 1 64).wf = false ∧ (Instr.getbcd (2 ^ 63) 1 1).wf = false ∧
    (Instr.getbcd 10 64 1).wf = false ∧ (Instr.getbcd 10 1 64).wf = false := by decide

theorem test_wf_discrete : (Instr.setdisc (2 ^ 63) 1 1).wf = false ∧ (Instr.setdisc 0 64 1).wf = false ∧
    (Instr.setdisc 0 1 64).wf = false ∧ (Instr.setdbit (2 ^ 63) 1).wf = false ∧ (Instr.setdbit 0 64).wf = false := by decide

/-! ### Words written out from the encoding tables (96_test_vectors_families.md 2.12, 95_test_vectors.md Part 3)

A word is put together from its printed header and its four printed operand words. -/

/-- `cmd = D ++ C ++ B ++ A ++ header`, each group as the listings print it. -/
def word (d c b a header : Nat) : CmdWord := BitVec.ofNat 288 ((((d * 2 ^ 64 + c) * 2 ^ 64 + b) * 2 ^ 64 + a) * 2 ^ 32 + header)

theorem test_decode_setraw : decode (word 0 0 0 0xFFFFFFFFFFFFFFFF 0x00020101) = .command (.setraw (-1) 1 8) := by decide
theorem test_decode_getraw : decode (word 0 0 0 0 0x00040902) = .command (.getraw 9 16) := by decide
theorem test_decode_setid : decode (word 0 0 0 0xCA 0x00000003) = .command (.setid 202) := by decide
theorem test_decode_getid : decode (word 0 0 0 0 0x00000004) = .command .getid := by decide
theorem test_decode_setsdi : decode (word 0 0 0 2 0x00000005) = .command (.setsdi 2) := by decide
theorem test_decode_getsdi : decode (word 0 0 0 0 0x00000006) = .command .getsdi := by decide
theorem test_decode_setssm : decode (word 0 0 0 3 0x00000007) = .command (.setssm 3) := by decide
theorem test_decode_getssm : decode (word 0 0 0 0 0x00000008) = .command .getssm := by decide
theorem test_decode_setpar : decode (word 0 0 0 1 0x00000009) = .command (.setpar 1) := by decide
theorem test_decode_getpar : decode (word 0 0 0 0 0x0000000A) = .command .getpar := by decide
theorem test_decode_setbnr : decode (word 8 1 0xA 0xFFFFFFFFFFFFFA61 0x01D70E0B) =
    .command (.setbnr ⟨-1439, 10⟩ ⟨1, 8⟩ 14 28 29) := by decide
theorem test_decode_getbnr : decode (word 0x8000 0x1000 0 0 0x01D70E0C) =
    .command (.getbnr ⟨4096, 32768⟩ 14 28 29) := by decide
theorem test_decode_setbcdd : decode (word 0 0 0 9 0x00038B0D) = .command (.setbcdd 9 11 14) := by decide
theorem test_decode_setbcd : decode (word 0 0 0xA 0x18 0x00048B0E) = .command (.setbcd 24 10 11 18) := by decide
theorem test_decode_getbcd : decode (word 0 0 0xA 0 0x0007580F) = .command (.getbcd 10 24 29) := by decide
theorem test_decode_setdisc : decode (word 0 0 0 1 0x00034B10) = .command (.setdisc 1 11 13) := by decide
theorem test_decode_getdisc : decode (word 0 0 0 0 0x00034B11) = .command (.getdisc 11 13) := by decide
theorem test_decode_setdbit : decode (word 0 0 0 1 0x00000F12) = .command (.setdbit 1 15) := by decide
theorem test_decode_getdbit : decode (word 0 0 0 0 0x00000F13) = .command (.getdbit 15) := by decide
theorem test_decode_clr : decode (word 0xB 9 7 0xFFFFFFFFFFFFFFFF 0x03FFFF14) = .command .clr := by decide
theorem test_decode_getword : decode (word 0 0 0 0 0x00000015) = .command .getword := by decide
theorem test_decode_getdsr : decode (word 0 0 0 0 0x00000016) = .command .getdsr := by decide
theorem test_decode_clrdsr : decode (word 0 0 0 0 0x00000017) = .command .clrdsr := by decide
theorem test_decode_zero_word : decode (word 0 0 0 0 0) = .illegal .undefinedOpcode := by decide
theorem test_decode_opcode_ff : decode (word 0 0 0 0 0xFF) = .illegal .undefinedOpcode := by decide
theorem test_decode_reserved : decode (word 0 0 0 0 0x80000014) = .illegal .reservedBits := by decide

/-! ### One or two vectors per command (95_test_vectors.md, 96_test_vectors_families.md) -/

/-- The state right after reset, but for the label. -/
def holding (raw : LabelWord) : State := { State.reset with raw := raw }

/-- What a command leaves: `raw`, `dsr`, the result pair, the diagnostics. -/
structure Seen where
  raw : LabelWord
  dsr : DsrWord
  rn : Int
  rd : Int
  diags : List Diag
deriving DecidableEq, Repr

/-- The command run on a label, and what it leaves. -/
def after (raw : LabelWord) (i : Instr) : Option Seen :=
  match exec i (holding raw) with
  | .next t => t.rsp.map fun r => ⟨t.raw, t.dsr, r.rn.toInt, r.rd.toInt, r.diags⟩
  | .fault _ => none
  | .refused _ => none

theorem test_setraw_writes : after 0x5 (.setraw 7 4 6) = some ⟨0x3D, 0, 0, 1, []⟩ := by decide
theorem test_setraw_wide_before_occupied : after 0x10 (.setraw 16 4 6) = some ⟨0x10, 2, 0, 1, [.valueTooWideError]⟩ := by
  decide
theorem test_getraw_reads : after 0xA500 (.getraw 11 14) = some ⟨0xA500, 0, 9, 1, []⟩ := by decide
theorem test_getraw_out_of_range : after 0xA500 (.getraw 9 40) = some ⟨0xA500, 1, 0, 1, [.rangeError]⟩ := by decide
theorem test_setid : after 0x100 (.setid 0xFF) = some ⟨0x1FF, 0, 0, 1, []⟩ := by decide
theorem test_setid_wide : after 0 (.setid 256) = some ⟨0, 2, 0, 1, [.valueTooWideError]⟩ := by decide
theorem test_getid : after 0x608C00CA .getid = some ⟨0x608C00CA, 0, 202, 1, []⟩ := by decide
theorem test_setsdi : after 0xFF (.setsdi 1) = some ⟨0x1FF, 0, 0, 1, []⟩ := by decide
theorem test_setsdi_occupied : after 0x100 (.setsdi 2) = some ⟨0x100, 4, 0, 1, [.rangeOccupiedError]⟩ := by decide
theorem test_getsdi : after 0x300 .getsdi = some ⟨0x300, 0, 3, 1, []⟩ := by decide
theorem test_setssm : after 0x90000000 (.setssm 3) = some ⟨0xF0000000, 0, 0, 1, []⟩ := by decide
theorem test_getssm : after 0x40000000 .getssm = some ⟨0x40000000, 0, 2, 1, []⟩ := by decide
theorem test_setpar_even : after 0x608C00CA (.setpar 0) = some ⟨0xE08C00CA, 0, 0, 1, []⟩ := by decide
theorem test_setpar_illegal : after 0 (.setpar 2) = some ⟨0, 0x80, 0, 1, [.illegalCommandError]⟩ := by decide
theorem test_getpar : after 0xE08C00CA .getpar = some ⟨0xE08C00CA, 0, 1, 1, []⟩ := by decide
theorem test_setbnr_truncates : after 0 (.setbnr ⟨-1439, 10⟩ ⟨1, 8⟩ 14 28 29) = some ⟨0x108FE000, 0, 0, 1, []⟩ := by
  decide
theorem test_setbnr_partial : after 0x10 (.setbnr ⟨-3, 1⟩ ⟨1, 1⟩ 1 4 5) =
    some ⟨0x13, 4, 0, 1, [.rangeOccupiedError]⟩ := by decide
theorem test_getbnr_unreduced : after 0x13 (.getbnr ⟨1, 9⟩ 1 4 5) = some ⟨0x13, 0, -3, 9, []⟩ := by decide
theorem test_getbnr_two_range_errors : after 0x3 (.getbnr ⟨1, 1⟩ 5 4 0) =
    some ⟨0x3, 1, 0, 1, [.rangeError, .rangeError]⟩ := by decide
theorem test_setbcdd_fifteen : after 0 (.setbcdd 15 11 14) = some ⟨0x3C00, 0, 0, 1, []⟩ := by decide
theorem test_setbcdd_reversed : after 0 (.setbcdd 1 14 11) = some ⟨0, 0x10, 0, 1, [.digitOutOfRangeError]⟩ := by decide
theorem test_setbcd_leftover : after 0x8400 (.setbcd 124 10 11 18) =
    some ⟨0x8400, 0xC, 0, 1, [.rangeOccupiedError, .rangeOccupiedError, .valueOutOfRangeError]⟩ := by decide
theorem test_setbcd_narrow_group : after 0 (.setbcd 31 10 19 23) =
    some ⟨0x40000, 0x10, 0, 1, [.digitOutOfRangeError]⟩ := by decide
theorem test_getbcd_groups_above_nine : after 0xF000 (.getbcd 10 11 18) = some ⟨0xF000, 0, 42, 1, []⟩ := by decide
theorem test_getbcd_radix : after 0x13C49000 (.getbcd 16 11 18) =
    some ⟨0x13C49000, 0x20, 0, 1, [.unsupportedRadixError]⟩ := by decide
theorem test_setdisc : after 0x4000 (.setdisc 1 11 13) = some ⟨0x4400, 0, 0, 1, []⟩ := by decide
theorem test_getdisc : after 0x4400 (.getdisc 11 15) = some ⟨0x4400, 0, 17, 1, []⟩ := by decide
theorem test_setdbit : after 0 (.setdbit 1 32) = some ⟨0x80000000, 0, 0, 1, []⟩ := by decide
theorem test_setdbit_two : after 0 (.setdbit 2 15) = some ⟨0, 2, 0, 1, [.valueTooWideError]⟩ := by decide
theorem test_getdbit : after 0x80000000 (.getdbit 32) = some ⟨0x80000000, 0, 1, 1, []⟩ := by decide
theorem test_clr : after 0xE08C00CA .clr = some ⟨0, 0, 0, 1, []⟩ := by decide
theorem test_getword : after 0xFFFFFFFF .getword = some ⟨0xFFFFFFFF, 0, 4294967295, 1, []⟩ := by decide

/-- Registers after one step on a state whose next input is `h`. -/
def stepped (raw : LabelWord) (dsr : DsrWord) (h : HostInput) : Option (LabelWord × DsrWord × Option (Int × List Diag)) :=
  match step { holding raw with dsr := dsr, inputs := [h] } with
  | .next t => some (t.raw, t.dsr, t.rsp.map fun r => (r.rn.toInt, r.diags))
  | .fault _ => none
  | .refused _ => none

theorem test_step_clr_keeps_dsr : stepped 0xE08C00CA 4 (.command 0x14#288) = some (0, 4, some (0, [])) := by decide
theorem test_step_getdsr : stepped 5 0x4C (.command 0x16#288) = some (5, 0x4C, some (76, [])) := by decide
theorem test_step_clrdsr : stepped 5 6 (.command 0x17#288) = some (5, 0, some (0, [])) := by decide
theorem test_step_illegal_word : stepped 5 0 (.command 0#288) = some (5, 0x80, some (0, [.illegalCommandError])) := by decide
theorem test_step_reset : stepped 5 6 .reset = some (0, 0, none) := by decide

theorem test_tableWord_row : decodeTableWord 32 0x14 = some .clr ∧ decodeTableWord 32 0x0B =
    some (.setbnr ⟨0, 0⟩ ⟨0, 0⟩ 0 0 0) ∧ decodeTableWord 32 0 = none := by decide

/-- 20_memory.md R54: the leftmost digit shows label bits 32 to 29. -/
theorem test_hexDigits : hexDigits 0x608C00CA = [6, 0, 8, 0xC, 0, 0, 0xC, 0xA] := by decide

theorem test_codes : highestSetBit (2 ^ 32 - 1) = 31 ∧ popCount 0x608C00CA = 9 ∧
    maskRange 0x0000A500 11 14 = 0x00002400 ∧ rangeMask 1 32 = 0xFFFFFFFF := by decide

/-! ### Witnesses: for each statement with hypotheses, a state and operands that meet them all

Where a statement has several clauses, there is a witness for each at the boundary of its range. -/

theorem bitsFree_zero (f l : Nat) : bitsFree (holding 0).raw f l := fun n _ _ => labelBit_zero n

/-- Label bit 3 alone. -/
def bit3 : State := holding 0x4

theorem bit3_occupied : ¬ bitsFree bit3.raw 1 4 := fun h => absurd (h 3 (by decide) (by decide)) (by decide)

theorem bit3_free_beside : bitsFree bit3.raw 4 32 := by
  intro n h h'
  simp only [bit3, holding, labelBit]
  interval_cases n <;> rfl

/-- A machine that has reported one diagnostic, with a `SETRAW 5, 1, 3` presented. -/
def reportedOnce (h : HostInput) : State := ⟨0#32, 4#8, [h], none, [⟨0#128, 1#64, [.rangeOccupiedError]⟩]⟩

/-- `SETRAW 5, 1, 3` (96_test_vectors_families.md 2.12). -/
def setraw513 : CmdWord := word 0 0 0 5 0x0000C101

theorem setraw513_decodes : decode setraw513 = .command (.setraw 5 1 3) := by decide

theorem witness_DecodeUndoesEncode : (Instr.setraw (2 ^ 63 - 1) 63 0).wf = true ∧
    (Instr.setbnr ⟨-(2 ^ 63), 0⟩ ⟨0, 2 ^ 63 - 1⟩ 0 63 63).wf = true := by decide

theorem witness_DecodedCommandsFitTheirFields : decode setraw513 = .command (.setraw 5 1 3) := setraw513_decodes

theorem witness_MaskTestSelectsTheCommand : (1 ≤ 1 ∧ 1 ≤ 0x17 ∧ (setraw513 &&& 0xFC0000FF#288).toNat = 1) ∧
    (1 ≤ 0x17 ∧ 0x17 ≤ 0x17 ∧ (0x17#288 &&& 0xFC0000FF#288).toNat = 0x17) := by decide

theorem witness_IgnoredFieldsHaveNoEffect :
    (decode 0x14#288 = .command .clr ∧ cmdBits 0x3FFFF14#288 0 8 = cmdBits 0x14#288 0 8 ∧
      cmdBits 0x3FFFF14#288 26 6 = cmdBits 0x14#288 26 6 ∧
      ∀ x ∈ usedFields .clr, fieldAt 0x3FFFF14#288 x = fieldAt 0x14#288 x) ∧
    Field.lb ∉ usedFields (.setdbit 1 15) := by decide

theorem witness_IllegalWordsOnlyReport : illegalWord 0#288 ∧ illegalWord 0x18#288 ∧ illegalWord 0xFF#288 ∧
    illegalWord 0x04000014#288 ∧ ¬ illegalWord 0x17#288 ∧ ¬ illegalWord 0x01#288 ∧
    (reportedOnce (.command 0#288)).inputs = .command 0#288 :: [] := by
  simp only [illegalWord]
  decide

theorem witness_IllegalOperandsOnlyReport :
    (∃ v r f l sb, Instr.setbnr ⟨7, 0⟩ ⟨1, 1⟩ 1 4 5 = .setbnr v r f l sb ∧ (v.den = 0 ∨ r.den = 0 ∨ r.num = 0)) ∧
    (∃ v r f l sb, Instr.setbnr ⟨7, 1⟩ ⟨1, 0⟩ 1 4 5 = .setbnr v r f l sb ∧ (v.den = 0 ∨ r.den = 0 ∨ r.num = 0)) ∧
    (∃ v r f l sb, Instr.setbnr ⟨7, 1⟩ ⟨0, 5⟩ 1 4 5 = .setbnr v r f l sb ∧ (v.den = 0 ∨ r.den = 0 ∨ r.num = 0)) ∧
    (∃ r f l sb, Instr.getbnr ⟨1, 0⟩ 1 4 5 = .getbnr r f l sb ∧ r.den = 0) ∧
    (∃ p, Instr.setpar 2 = .setpar p ∧ p ≠ 0 ∧ p ≠ 1) ∧ (∃ p, Instr.setpar (-1) = .setpar p ∧ p ≠ 0 ∧ p ≠ 1) :=
  ⟨⟨_, _, _, _, _, rfl, .inl rfl⟩, ⟨_, _, _, _, _, rfl, .inr (.inl rfl)⟩, ⟨_, _, _, _, _, rfl, .inr (.inr rfl)⟩,
    ⟨_, _, _, _, rfl, rfl⟩, ⟨_, rfl, by decide, by decide⟩, ⟨_, rfl, by decide, by decide⟩⟩

/-- Words of R66 and of each operand condition of R67, and legal words beside them (96_test_vectors_families.md 2.4, 2.5). -/
theorem witness_IllegalCommandWordsAndNoOthersReportIt :
    (reportedOnce (.command (word 0 0 0 2 9))).inputs = .command (word 0 0 0 2 9) :: [] ∧
    illegalCommandWord 0x18#288 ∧ illegalCommandWord (word 0 0 0 2 9) ∧ illegalCommandWord (word 1 1 0 7 0x0050040B) ∧
    illegalCommandWord (word 5 0 1 7 0x0050040B) ∧ illegalCommandWord (word 0 1 1 7 0x0050040B) ∧
    illegalCommandWord (word 0 1 0 0 0x0050040C) ∧
    ¬ illegalCommandWord (word 0 0 0 1 9) ∧ ¬ illegalCommandWord (word 0 0 0 0 9) ∧
    ¬ illegalCommandWord (word 1 1 1 7 0x0050040B) ∧ ¬ illegalCommandWord (word 1 0 0 0 0x0050040C) := by
  refine ⟨rfl, ?_, ?_, ?_, ?_, ?_, ?_, ?_, ?_, ?_, ?_⟩ <;> simp only [illegalCommandWord, illegalWord] <;> decide

theorem witness_StepRunsTheDecodedCommand : (reportedOnce (.command setraw513)).inputs = .command setraw513 :: [] ∧
    decode setraw513 = .command (.setraw 5 1 3) := ⟨rfl, setraw513_decodes⟩

theorem witness_StepRunsThePresentedTableWord : decodeTableWord 32 0x0000C101 = some (.setraw 0 1 3) := by decide

theorem witness_ResetRequestGivesTheResetState : (reportedOnce .reset).inputs = .reset :: [] := rfl

theorem witness_WaitingKeepsTheRegisters : State.reset.inputs = [] := rfl

theorem reportedOnce_inv (h : HostInput) : Inv (reportedOnce h) := by
  refine ⟨fun r hr => ?_, fun r hr => absurd hr (by simp [reportedOnce]), fun e he => ?_⟩
  · obtain rfl : r = ⟨0#128, 1#64, [.rangeOccupiedError]⟩ := by simpa [reportedOnce] using hr
    decide
  · refine ⟨_, List.mem_singleton.2 rfl, ?_⟩
    cases e <;> revert he <;> simp [reportedOnce, dsrBitOf]

theorem step_setraw513 : ∃ t, step (reportedOnce (.command setraw513)) = .next t := by
  obtain ⟨x, rn, rd, h⟩ := exec_completes (.setraw 5 1 3) (takeInput (reportedOnce (.command setraw513)) [])
  refine ⟨_, Eq.trans ?_ h⟩
  show runWord setraw513 _ = _
  rw [runWord, setraw513_decodes]

theorem witness_EveryStepKeepsTheInvariant :
    Inv (reportedOnce (.command setraw513)) ∧ ∃ t, step (reportedOnce (.command setraw513)) = .next t :=
  ⟨reportedOnce_inv _, step_setraw513⟩

theorem setraw513_not_clrdsr (w : CmdWord) (rest : List HostInput)
    (h : (reportedOnce (.command setraw513)).inputs = .command w :: rest) : decode w ≠ .command .clrdsr := by
  obtain ⟨rfl, -⟩ : setraw513 = w ∧ [] = rest := by simpa [reportedOnce] using h
  rw [setraw513_decodes]; simp

theorem witness_ZeroDsrMeansCleanRun :
    ((reportedOnce (.command setraw513)).dsr = 0#8 ↔ cleanRun (reportedOnce (.command setraw513))) ∧
    (∀ rest, (reportedOnce (.command setraw513)).inputs ≠ .reset :: rest) ∧
    (∀ w rest, (reportedOnce (.command setraw513)).inputs = .command w :: rest → decode w ≠ .command .clrdsr) ∧
    ∃ t, step (reportedOnce (.command setraw513)) = .next t :=
  ⟨by simp [reportedOnce, cleanRun], by simp [reportedOnce], setraw513_not_clrdsr, step_setraw513⟩

/-- The same at the start of a run, where nothing has been reported. -/
theorem witness_ZeroDsrMeansCleanRun_at_reset : State.reset.dsr = 0#8 ∧ cleanRun State.reset :=
  ⟨rfl, by simp [cleanRun]⟩

theorem witness_RawOnlyGainsBits :
    (∀ rest, (reportedOnce (.command setraw513)).inputs ≠ .reset :: rest) ∧
    (∀ w rest, (reportedOnce (.command setraw513)).inputs = .command w :: rest → decode w ≠ .command .clr) ∧
    ∃ t, step (reportedOnce (.command setraw513)) = .next t := by
  refine ⟨by simp [reportedOnce], ?_, step_setraw513⟩
  intro w rest h
  obtain ⟨rfl, -⟩ : setraw513 = w ∧ [] = rest := by simpa [reportedOnce] using h
  rw [setraw513_decodes]; simp

theorem witness_NoBitOutsideTheGivenRangesChanges :
    (∃ t, exec (.setraw 5 1 3) (holding 0) = .next t) ∧ 1 ≤ 4 ∧ 4 ≤ 32 ∧ ¬ mayWrite (.setraw 5 1 3) 4 := by
  refine ⟨⟨_, rfl⟩, by decide, by decide, ?_⟩
  simp only [mayWrite]
  decide

theorem witness_EachCommandGivesOneResponse : (∃ t, exec (.setid 202) (holding 0) = .next t) ∧ Instr.setid 202 ≠ .clrdsr :=
  ⟨⟨_, rfl⟩, by decide⟩

theorem witness_NoHiddenStateIsRead : (reportedOnce .reset).raw = (holding 0).raw ∧ (holding 0).dsr = State.reset.dsr ∧
    (reportedOnce .reset).dsr ≠ (holding 0).dsr := ⟨rfl, rfl, by decide⟩

theorem witness_ReadingIsIdempotent : isGetter (.getbcd 10 11 18) = true := rfl

theorem witness_DiagnosticCountIsBounded : (Instr.setbcd 11111111111111111 10 0 63).wf = true := by decide

theorem witness_HighestSetBitIsTheTopBit : 0 < 1 := by decide

theorem witness_PopCountCountsTheOneBits : 0x608C00CA < 2 ^ 32 ∧ 0 < 2 ^ 0 := by decide

theorem witness_MaskRangeKeepsTheRangeInPlace : legalRange 1 32 ∧ legalRange 32 32 ∧ legalRange 11 14 ∧ 1 ≤ 32 := by decide

theorem witness_DiagnosticCodesAndMasks : 7 < 8 := by decide

/-- The clauses of `writeEffect` at their boundaries: out of bounds below, above and reversed; a value one too wide; occupied;
written, at both ends of the word. -/
theorem witness_WritesFollowTheGuards :
    ¬ legalRange 0 3 ∧ ¬ legalRange 30 33 ∧ ¬ legalRange 5 4 ∧
    (legalRange 1 3 ∧ ¬ ((0 : Int) ≤ 8 ∧ (8 : Int) < 2 ^ (3 + 1 - 1))) ∧ (legalRange 1 3 ∧ ¬ ((0 : Int) ≤ -1 ∧ (-1 : Int) < 2 ^ (3 + 1 - 1))) ∧
    (legalRange 1 4 ∧ (0 : Int) ≤ 0 ∧ (0 : Int) < 2 ^ (4 + 1 - 1) ∧ ¬ bitsFree bit3.raw 1 4) ∧
    (legalRange 1 32 ∧ (0 : Int) ≤ 2 ^ 32 - 1 ∧ (2 ^ 32 - 1 : Int) < 2 ^ (32 + 1 - 1) ∧ bitsFree (holding 0).raw 1 32) :=
  ⟨by decide, by decide, by decide, by decide, by decide, ⟨by decide, by decide, by decide, bit3_occupied⟩,
    ⟨by decide, by decide, by decide, bitsFree_zero _ _⟩⟩

theorem witness_ReadsReturnTheField : ¬ legalRange 0 1 ∧ ¬ legalRange 33 33 ∧ ¬ legalRange 16 9 ∧ legalRange 1 32 ∧
    legalRange 32 32 := by decide

theorem witness_FixedFieldWrites :
    ((Instr.setid 255 = .setid 255 ∧ 1 = 1 ∧ 8 = 8) ∧ (0 : Int) ≤ 255 ∧ (255 : Int) < 2 ^ (8 + 1 - 1) ∧ bitsFree (holding 0).raw 1 8) ∧
    ((Instr.setsdi 4 = .setsdi 4 ∧ 9 = 9 ∧ 10 = 10) ∧ (2 : Int) ^ (10 + 1 - 9) ≤ 4) ∧ ((Instr.setssm (-1) = .setssm (-1)) ∧ (-1 : Int) < 0) ∧
    ((0 : Int) ≤ 0 ∧ (0 : Int) < 2 ^ (8 + 1 - 1) ∧ ¬ bitsFree (holding 0x80).raw 1 8) := by
  refine ⟨⟨⟨rfl, rfl, rfl⟩, by decide, by decide, bitsFree_zero _ _⟩, ⟨⟨rfl, rfl, rfl⟩, by decide⟩, ⟨rfl, by decide⟩,
    by decide, by decide, fun h => absurd (h 8 (by decide) (by decide)) (by decide)⟩

theorem witness_FixedFieldReads : (Instr.getid = .getid ∧ 1 = 1 ∧ 8 = 8) ∧ (Instr.getsdi = .getsdi ∧ 9 = 9 ∧ 10 = 10) ∧
    (Instr.getssm = .getssm ∧ 30 = 30 ∧ 31 = 31) ∧ (Instr.getpar = .getpar ∧ 32 = 32 ∧ 32 = 32) := by decide

theorem witness_WriteThenReadReturnsTheValue : legalRange 4 32 ∧ 2 ^ 29 - 1 < 2 ^ (32 + 1 - 4) ∧ bitsFree bit3.raw 4 32 ∧
    legalRange 1 3 ∧ 3 < 4 := ⟨by decide, by decide, bit3_free_beside, by decide, by decide⟩

theorem witness_OverlapIsRejected : legalRange 1 4 ∧ 0 < 2 ^ (4 + 1 - 1) ∧ 1 ≤ 3 ∧ 3 ≤ 4 ∧ labelBit bit3.raw 3 = true := by decide

theorem witness_SetparMakesTheParity : 0 < 2 ∧ 1 < 2 ∧ labelBit (holding 0x608C00CA).raw 32 = false := by decide

theorem witness_SetparNeverRewritesBit32 : 0 < 2 ∧ 1 < 2 ∧ labelBit (holding 0x80000000).raw 32 = true := by decide

theorem witness_EncoderTruncatesTowardZero : (⟨-1439, 10⟩ : Ratio).den ≠ 0 ∧ (⟨1, -8⟩ : Ratio).den ≠ 0 ∧ (⟨1, -8⟩ : Ratio).num ≠ 0 := by
  decide

/-- Zero resolution; a magnitude at the limit, and one above it. -/
theorem witness_SetbnrFollowsItsStatements :
    ((⟨7, 1⟩ : Ratio).den ≠ 0 ∧ (⟨0, 5⟩ : Ratio).den ≠ 0 ∧ (⟨0, 5⟩ : Ratio).num = 0) ∧
    ((⟨1, 8⟩ : Ratio).num ≠ 0 ∧ (bnrEncode ⟨-32767, 8⟩ ⟨1, 8⟩).natAbs < 2 ^ (28 + 1 - 14)) ∧
    2 ^ (28 + 1 - 14) ≤ (bnrEncode ⟨-4096, 1⟩ ⟨1, 8⟩).natAbs := by decide

theorem witness_SetbnrStoresSignAndMagnitude :
    (⟨-140, 1⟩ : Ratio).den ≠ 0 ∧ (⟨1, 8⟩ : Ratio).den ≠ 0 ∧ (⟨1, 8⟩ : Ratio).num ≠ 0 ∧ legalRange 14 28 ∧ legalRange 29 29 ∧
    ¬ (14 ≤ 29 ∧ 29 ≤ 28) ∧ bitsFree (holding 0).raw 14 28 ∧ labelBit (holding 0).raw 29 = false ∧
    (bnrEncode ⟨-140, 1⟩ ⟨1, 8⟩).natAbs < 2 ^ (28 + 1 - 14) :=
  ⟨by decide, by decide, by decide, by decide, by decide, by decide, bitsFree_zero _ _, by decide, by decide⟩

/-- The three cases of 43_bnr.md R144 on `[1, 4]` with sign bit 2: magnitude bit 1 (-6), bit 0 and positive (5), bit 0 and
negative (-5); and the sign bit at both ends of the range. -/
theorem witness_SignOverlapWarnsAndGoesOn :
    (⟨1, 1⟩ : Ratio).den ≠ 0 ∧ (⟨1, 1⟩ : Ratio).num ≠ 0 ∧ legalRange 1 4 ∧ 1 ≤ 2 ∧ 2 ≤ 4 ∧ bitsFree (holding 0).raw 1 4 ∧
    (bnrEncode ⟨-6, 1⟩ ⟨1, 1⟩).natAbs < 2 ^ (4 + 1 - 1) ∧ (bnrEncode ⟨-6, 1⟩ ⟨1, 1⟩).natAbs.testBit (2 - 1) = true ∧
    ((bnrEncode ⟨5, 1⟩ ⟨1, 1⟩).natAbs.testBit (2 - 1) = false ∧ 0 ≤ bnrEncode ⟨5, 1⟩ ⟨1, 1⟩) ∧
    ((bnrEncode ⟨-5, 1⟩ ⟨1, 1⟩).natAbs.testBit (2 - 1) = false ∧ bnrEncode ⟨-5, 1⟩ ⟨1, 1⟩ < 0) ∧ 1 ≤ 1 ∧ 4 ≤ 4 :=
  ⟨by decide, by decide, by decide, by decide, by decide, bitsFree_zero _ _, by decide, by decide, by decide, by decide,
    by decide, by decide⟩

theorem witness_ReversedBnrRangeWritesNothing : (⟨-3, 1⟩ : Ratio).den ≠ 0 ∧ (⟨1, 1⟩ : Ratio).den ≠ 0 ∧ (⟨1, 1⟩ : Ratio).num ≠ 0 ∧
    4 < 5 ∧ bnrEncode ⟨-3, 1⟩ ⟨1, 1⟩ ≠ 0 ∧ bnrEncode ⟨0, 1⟩ ⟨1, 1⟩ = 0 := by decide

theorem witness_GetbnrReturnsTheSignedProduct : (⟨2 ^ 63 - 1, -(2 ^ 63)⟩ : Ratio).den ≠ 0 ∧
    (⟨2 ^ 63 - 1, -(2 ^ 63)⟩ : Ratio).encodable = true ∧ (⟨0, 1⟩ : Ratio).encodable = true := by decide

theorem witness_BnrRoundTrip :
    (⟨140, 1⟩ : Ratio).den ≠ 0 ∧ (⟨4096, 32768⟩ : Ratio).den ≠ 0 ∧ (⟨4096, 32768⟩ : Ratio).num ≠ 0 ∧
    (⟨4096, 32768⟩ : Ratio).encodable = true ∧ legalRange 14 28 ∧ legalRange 29 29 ∧ ¬ (14 ≤ 29 ∧ 29 ≤ 28) ∧
    bitsFree (holding 0).raw 14 28 ∧ labelBit (holding 0).raw 29 = false ∧
    (bnrEncode ⟨140, 1⟩ ⟨4096, 32768⟩).natAbs < 2 ^ (28 + 1 - 14) :=
  ⟨by decide, by decide, by decide, by decide, by decide, by decide, by decide, bitsFree_zero _ _, by decide, by decide⟩

/-- Digits at and above the capacity of a 4-bit and of a reversed range. -/
theorem witness_SetbcddChecksTheCapacityFirst :
    ((0 : Int) ≤ 15 ∧ (15 : Int) < 2 ^ (14 + 1 - 11)) ∧ (2 : Int) ^ (14 + 1 - 11) ≤ 16 ∧ (-1 : Int) < 0 ∧
    ((0 : Int) ≤ 0 ∧ (0 : Int) < 2 ^ (11 + 1 - 14)) ∧ (2 : Int) ^ (11 + 1 - 14) ≤ 1 := by decide

theorem witness_BcdRefusesRadixThenSign : (16 : Int) ≠ 10 ∧ (9 : Int) ≠ 10 ∧ (11 : Int) ≠ 10 ∧ (-1 : Int) < 0 := by decide

/-- The clauses of `digitEffect` at their boundaries: too large for a 1-bit group, out of bounds, occupied, written. -/
theorem witness_SetbcdWritesEveryGroupOnItsOwn :
    (0 < (18 + 1 - 11 + 3) / 4 ∧ 2 ^ (23 + 1 - 23) ≤ 31 / 10 ^ 1 % 10) ∧ (1 < 2 ^ (36 + 1 - 33) ∧ ¬ legalRange 33 36) ∧
    (5 < 2 ^ (3 + 1 - 0) ∧ ¬ legalRange 0 3) ∧ (4 < 2 ^ (4 + 1 - 1) ∧ legalRange 1 4 ∧ ¬ bitsFree bit3.raw 1 4) ∧
    (9 < 2 ^ (32 + 1 - 29) ∧ legalRange 29 32 ∧ bitsFree (holding 0).raw 29 32) :=
  ⟨by decide, by decide, by decide, ⟨by decide, by decide, bit3_occupied⟩, by decide, by decide, bitsFree_zero _ _⟩

theorem witness_GetbcdSumsTheGroups : 63 < 64 ∧ 0 < (63 + 1 - 0 + 3) / 4 := by decide

theorem witness_BcdRoundTrip : legalRange 19 23 ∧ bitsFree (holding 0).raw 19 23 ∧ 19 ≤ bcdLargest 19 23 ∧ ¬ 20 ≤ bcdLargest 19 23 :=
  ⟨by decide, bitsFree_zero _ _, by decide, by decide⟩

end Sys2Proof.Tests
end

/-! ## Scope (00_scope.md): what every command and every step keeps

`actsWithin` says once what all commands have in common: only label bits of a given set change, and the diagnostics listed are
exactly those whose flags were set. Each operation has it for its own range, each command for `mayWrite`. -/

namespace Sys2Proof.Machine

/-! ### Acting within a set of label bits -/

/-- From `x` to `y` a command in progress has changed no label bit outside `P`, and has set in `dsr` exactly the flags of the
diagnostics it reported. -/
def actsWithin (P : Nat → Prop) (x y : InFlight) : Prop :=
  (∃ ds, reported x y ds) ∧ ∀ n, 1 ≤ n → n ≤ 32 → ¬ P n → labelBit y.raw n = labelBit x.raw n

theorem actsWithin_refl (P : Nat → Prop) (x : InFlight) : actsWithin P x x :=
  ⟨⟨[], reported_nil x⟩, fun _ _ _ _ => rfl⟩

theorem actsWithin_trans {P : Nat → Prop} {x y z : InFlight} (h : actsWithin P x y) (h' : actsWithin P y z) :
    actsWithin P x z := by
  obtain ⟨⟨ds, hr⟩, hk⟩ := h
  obtain ⟨⟨es, hr'⟩, hk'⟩ := h'
  exact ⟨⟨ds ++ es, reported_trans hr hr'⟩, fun n hn hn' hP => (hk' n hn hn' hP).trans (hk n hn hn' hP)⟩

theorem actsWithin_mono {P Q : Nat → Prop} {x y : InFlight} (h : actsWithin P x y) (hPQ : ∀ n, P n → Q n) :
    actsWithin Q x y :=
  ⟨h.1, fun n hn hn' hQ => h.2 n hn hn' (mt (hPQ n) hQ)⟩

/-- A part of a command that keeps `raw` acts within every set. -/
theorem actsWithin_of_raw_eq {P : Nat → Prop} {x y : InFlight} {ds : List Diag} (hr : reported x y ds)
    (hraw : y.raw = x.raw) : actsWithin P x y :=
  ⟨⟨ds, hr⟩, fun _ _ _ _ => by rw [hraw]⟩

theorem report_actsWithin (P : Nat → Prop) (e : Diag) (x : InFlight) : actsWithin P x (report e x) :=
  actsWithin_of_raw_eq (reported_one e x) (report_raw e x)

/-- A guarded write, whatever becomes of it, changes nothing outside its range (20_memory.md R42). -/
theorem writeEffect_sameOutside {raw raw' : LabelWord} {v : Int} {f l : Nat} {ds : List Diag}
    (h : writeEffect raw v f l raw' ds) : sameOutside raw raw' f l := by
  obtain ⟨hbounds, hwide, hoccupied, hwritten⟩ := h
  have of_eq : raw' = raw → sameOutside raw raw' f l := fun e _ _ _ _ => by rw [e]
  by_cases hl : legalRange f l
  swap
  · exact of_eq (hbounds hl).1
  by_cases hv : 0 ≤ v ∧ v < 2 ^ (l + 1 - f)
  swap
  · exact of_eq (hwide hl hv).1
  by_cases hfree : bitsFree raw f l
  · exact (hwritten hl hv.1 hv.2 hfree).2.1
  · exact of_eq (hoccupied hl hv.1 hv.2 hfree).1

theorem setRaw_actsWithin (v : Int) (f l : Nat) (x : InFlight) :
    actsWithin (fun n => f ≤ n ∧ n ≤ l) x (setRaw v f l x) := by
  obtain ⟨ds, hr, hw⟩ := setRaw_spec v f l x
  exact ⟨⟨ds, hr⟩, writeEffect_sameOutside hw⟩

theorem getRaw_actsWithin (P : Nat → Prop) (f l : Nat) (x : InFlight) : actsWithin P x (getRaw f l x).2 := by
  obtain ⟨ds, hr, hraw, -⟩ := getRaw_spec f l x
  exact actsWithin_of_raw_eq hr hraw

/-! ### The codecs -/

theorem setBcdDigit_actsWithin (d : Int) (f l : Nat) (x : InFlight) :
    actsWithin (fun n => f ≤ n ∧ n ≤ l) x (setBcdDigit d f l x) := by
  obtain ⟨hrefused, hwritten⟩ := setBcdDigit_spec d f l x
  by_cases hd : d < 0 ∨ 2 ^ (l + 1 - f) ≤ d
  · rw [hrefused hd]
    exact report_actsWithin _ _ _
  · rw [hwritten hd]
    exact setRaw_actsWithin d f l x

/-- All groups of a field lie in the field, so the writing loop stays in it (44_bcd.md R160, R163). -/
theorem setBcdGroups_actsWithin (rem f l : Nat) (x : InFlight) :
    actsWithin (fun n => f ≤ n ∧ n ≤ l) x (setBcdGroups (bcdGroups f l) rem x).2 := by
  rw [bcdGroups_eq]
  obtain ⟨-, dss, -, hr, -, hout⟩ := setBcdGroups_spec f l ((l + 1 - f + 3) / 4) 0 rem x (by omega)
  exact ⟨⟨_, hr⟩, fun n hn hn' hP => hout n hn hn' (by omega)⟩

theorem setBcd_actsWithin (v radix : Int) (f l : Nat) (x : InFlight) :
    actsWithin (fun n => f ≤ n ∧ n ≤ l) x (setBcd v radix f l x) := by
  unfold setBcd
  split
  · exact report_actsWithin _ _ _
  split
  · exact report_actsWithin _ _ _
  have hgroups := setBcdGroups_actsWithin v.toNat f l x
  dsimp only
  split
  · exact actsWithin_trans hgroups (report_actsWithin _ _ _)
  · exact hgroups

theorem getBcd_actsWithin (P : Nat → Prop) (radix : Int) (f l : Nat) (x : InFlight) :
    actsWithin P x (getBcd radix f l x).2 := by
  unfold getBcd
  split
  · exact report_actsWithin _ _ _
  rw [bcdGroups_eq]
  obtain ⟨_, _, -, -, -, hraw, hr, -⟩ := getBcdGroups_spec f l ((l + 1 - f + 3) / 4) 0 0 x
  exact actsWithin_of_raw_eq hr hraw

theorem warnOverlap_actsWithin (P : Nat → Prop) (f l sb : Nat) (x : InFlight) :
    actsWithin P x (warnOverlap f l sb x) := by
  obtain ⟨hraw, hr⟩ := warnOverlap_spec f l sb x
  exact actsWithin_of_raw_eq hr hraw

theorem writeBnr_actsWithin (encoded : Int) (f l sb : Nat) (x : InFlight) :
    actsWithin (fun n => (f ≤ n ∧ n ≤ l) ∨ n = sb) x (writeBnr encoded f l sb x) := by
  refine actsWithin_trans (actsWithin_mono (setRaw_actsWithin encoded.natAbs f l x) fun _ => .inl) ?_
  exact actsWithin_mono (setRaw_actsWithin _ sb sb _) fun n hn => .inr (by omega)

theorem setBnr_actsWithin (v r : Ratio) (f l sb : Nat) (x : InFlight) :
    actsWithin (fun n => (f ≤ n ∧ n ≤ l) ∨ n = sb) x (setBnr v r f l sb x) := by
  unfold setBnr
  split
  · exact report_actsWithin _ _ _
  refine actsWithin_trans (warnOverlap_actsWithin _ f l sb x) ?_
  dsimp only
  split
  · exact report_actsWithin _ _ _
  · exact writeBnr_actsWithin _ f l sb _

/-! ### Whole commands -/

/-- The outcome is the end of a command, run on `s`, that acted within `P`. -/
def endsWithin (P : Nat → Prop) (s : State) (o : Host.Outcome State Fault Refusal) : Prop :=
  ∃ x rn rd, o = .next (completeCommand s x rn rd) ∧ actsWithin P (startCommand s) x

theorem answerRatio_endsWithin {P : Nat → Prop} {s : State} {x : InFlight} (h : actsWithin P (startCommand s) x)
    (rn rd : Int) : endsWithin P s (answerRatio s x rn rd) :=
  ⟨x, rn, rd, rfl, h⟩

theorem answerInt_endsWithin {P : Nat → Prop} {s : State} {x : InFlight} (h : actsWithin P (startCommand s) x)
    (v : Nat) : endsWithin P s (answerInt s x v) :=
  answerRatio_endsWithin h v 1

theorem answerNone_endsWithin {P : Nat → Prop} {s : State} {x : InFlight} (h : actsWithin P (startCommand s) x) :
    endsWithin P s (answerNone s x) :=
  answerRatio_endsWithin h 0 1

theorem writeField_endsWithin (v : Int) (f l : Nat) (s : State) :
    endsWithin (fun n => f ≤ n ∧ n ≤ l) s (writeField v f l s) :=
  answerNone_endsWithin (setRaw_actsWithin v f l _)

theorem readField_endsWithin (P : Nat → Prop) (f l : Nat) (s : State) : endsWithin P s (readField f l s) :=
  answerInt_endsWithin (getRaw_actsWithin P f l _) _

theorem illegalCommand_endsWithin (P : Nat → Prop) (s : State) : endsWithin P s (illegalCommand s) :=
  answerNone_endsWithin (report_actsWithin P _ _)

theorem execSetpar_endsWithin (p : Int) (s : State) : endsWithin (fun n => n = 32) s (execSetpar p s) := by
  unfold execSetpar
  split
  · exact illegalCommand_endsWithin _ s
  · exact answerNone_endsWithin (actsWithin_mono (setRaw_actsWithin _ 32 32 _) fun n hn => by omega)

theorem execSetbnr_endsWithin (v r : Ratio) (f l sb : Nat) (s : State) :
    endsWithin (fun n => (f ≤ n ∧ n ≤ l) ∨ n = sb) s (execSetbnr v r f l sb s) := by
  unfold execSetbnr
  split
  · exact illegalCommand_endsWithin _ s
  · exact answerNone_endsWithin (setBnr_actsWithin v r f l sb _)

theorem execGetbnr_endsWithin (P : Nat → Prop) (r : Ratio) (f l sb : Nat) (s : State) :
    endsWithin P s (execGetbnr r f l sb s) := by
  unfold execGetbnr
  split
  · exact illegalCommand_endsWithin P s
  · exact answerRatio_endsWithin (actsWithin_trans (getRaw_actsWithin P f l _) (getRaw_actsWithin P sb sb _)) _ _

theorem execSetdbit_endsWithin (v : Int) (b : Nat) (s : State) :
    endsWithin (fun n => n = b) s (execSetdbit v b s) :=
  answerNone_endsWithin (actsWithin_mono (setRaw_actsWithin v b b _) fun n hn => by omega)

theorem execClr_endsWithin (s : State) : endsWithin (fun _ => True) s (execClr s) :=
  answerNone_endsWithin ⟨⟨[], rfl, rfl⟩, fun _ _ _ h => absurd trivial h⟩

/-- Every command acts within the ranges it is given and sets the flags of what it reports, and no other; `CLRDSR`, which
clears flags, is the one exception (00_scope.md R2, 10_state.md R28). -/
theorem exec_endsWithin {i : Instr} (hi : i ≠ .clrdsr) (s : State) : endsWithin (mayWrite i) s (exec i s) := by
  cases i with
  | setraw v f l => exact writeField_endsWithin v f l s
  | setid v => exact writeField_endsWithin v 1 8 s
  | setsdi v => exact writeField_endsWithin v 9 10 s
  | setssm v => exact writeField_endsWithin v 30 31 s
  | setdisc v f l => exact writeField_endsWithin v f l s
  | setdbit v b => exact execSetdbit_endsWithin v b s
  | setpar p => exact execSetpar_endsWithin p s
  | setbnr v r f l sb => exact execSetbnr_endsWithin v r f l sb s
  | setbcdd d f l => exact answerNone_endsWithin (setBcdDigit_actsWithin d f l _)
  | setbcd v r f l => exact answerNone_endsWithin (setBcd_actsWithin v r f l _)
  | getraw f l => exact readField_endsWithin _ f l s
  | getid => exact readField_endsWithin _ 1 8 s
  | getsdi => exact readField_endsWithin _ 9 10 s
  | getssm => exact readField_endsWithin _ 30 31 s
  | getpar => exact readField_endsWithin _ 32 32 s
  | getdisc f l => exact readField_endsWithin _ f l s
  | getdbit b => exact readField_endsWithin _ b b s
  | getbnr r f l sb => exact execGetbnr_endsWithin _ r f l sb s
  | getbcd r f l => exact answerInt_endsWithin (getBcd_actsWithin _ r f l _) _
  | clr => exact execClr_endsWithin s
  | getword => exact answerInt_endsWithin (actsWithin_refl _ _) _
  | getdsr => exact answerInt_endsWithin (actsWithin_refl _ _) _
  | clrdsr => exact absurd rfl hi

theorem exec_clrdsr_raw {s t : State} (h : exec .clrdsr s = .next t) : t.raw = s.raw := by
  cases h
  rfl

/-- Settles O18: `CLRDSR` keeps `raw`, and every other command acts within `mayWrite`. -/
theorem noBitOutsideTheGivenRangesChanges : Obligations.NoBitOutsideTheGivenRangesChanges := by
  intro i s t n h hn hn' hout
  by_cases hi : i = .clrdsr
  · subst hi
    rw [exec_clrdsr_raw h]
  · obtain ⟨x, rn, rd, he, -, hkeep⟩ := exec_endsWithin hi s
    obtain rfl : completeCommand s x rn rd = t := by simpa [he] using h
    exact hkeep n hn hn' hout

/-! ### `dsr = 0` and clean runs -/

/-- The eight flags are all eight bits of `dsr` (10_state.md R27). -/
theorem exists_dsrBitOf_eq {k : Nat} (hk : k < 8) : ∃ e, dsrBitOf e = k := by
  interval_cases k
  exacts [⟨.rangeError, rfl⟩, ⟨.valueTooWideError, rfl⟩, ⟨.rangeOccupiedError, rfl⟩, ⟨.valueOutOfRangeError, rfl⟩,
    ⟨.digitOutOfRangeError, rfl⟩, ⟨.unsupportedRadixError, rfl⟩, ⟨.signBitOverlapError, rfl⟩, ⟨.illegalCommandError, rfl⟩]

theorem dsr_eq_zero_iff (d : DsrWord) : d = 0#8 ↔ ∀ e, d.getLsbD (dsrBitOf e) = false := by
  constructor
  · rintro rfl e
    simp
  · intro h
    refine BitVec.eq_of_getLsbD_eq fun k hk => ?_
    obtain ⟨e, rfl⟩ := exists_dsrBitOf_eq hk
    simp [h e]

theorem dsr_eq_zero_after_iff {d d' : DsrWord} {ds : List Diag} (h : flagsAfter d d' ds) :
    d' = 0#8 ↔ d = 0#8 ∧ ds = [] := by
  simp only [dsr_eq_zero_iff, h _, Bool.or_eq_false_iff, decide_eq_false_iff_not, forall_and,
    List.eq_nil_iff_forall_not_mem]

theorem cleanRun_completeCommand_iff (s : State) (x : InFlight) (rn rd : Int) :
    cleanRun (completeCommand s x rn rd) ↔ cleanRun s ∧ x.diags = [] := by
  simp [cleanRun, or_imp, forall_and]

/-- A command that reports to its response what it flags in `dsr` keeps `dsr = 0` equivalent to a clean run (00_scope.md R12). -/
theorem endsWithin_zeroDsr_iff_cleanRun {P : Nat → Prop} {s t : State} (h : endsWithin P s (.next t))
    (hs : s.dsr = 0#8 ↔ cleanRun s) : t.dsr = 0#8 ↔ cleanRun t := by
  obtain ⟨x, rn, rd, he, ⟨ds, hdiags, hdsr⟩, -⟩ := h
  obtain rfl : t = completeCommand s x rn rd := by simpa using he
  have hlist : x.diags = ds := by simpa using hdiags
  have hflags : flagsAfter s.dsr x.dsr x.diags := by
    rw [hdsr, hlist]
    exact flagsAfter_foldl s.dsr ds
  calc x.dsr = 0#8 ↔ s.dsr = 0#8 ∧ x.diags = [] := dsr_eq_zero_after_iff hflags
    _ ↔ cleanRun s ∧ x.diags = [] := by rw [hs]
    _ ↔ cleanRun (completeCommand s x rn rd) := (cleanRun_completeCommand_iff s x rn rd).symm

/-- Settles O16: waiting changes neither side; a command other than `CLRDSR`, and the illegal command, flag what they report. -/
theorem zeroDsrMeansCleanRun : Obligations.ZeroDsrMeansCleanRun := by
  intro s t hs hreset hclrdsr h
  rcases step_cases h with ⟨-, rfl⟩ | ⟨rest, hr, -⟩ | ⟨w, rest, i, hw, hi, he⟩ | ⟨w, rest, why, -, -, he⟩
  · exact hs
  · exact absurd hr (hreset rest)
  · have hne : i ≠ .clrdsr := fun e => hclrdsr w rest hw (e ▸ hi)
    have hend := exec_endsWithin hne (takeInput s rest)
    rw [he] at hend
    exact endsWithin_zeroDsr_iff_cleanRun hend hs
  · have hend := illegalCommand_endsWithin (fun _ => False) (takeInput s rest)
    rw [he] at hend
    exact endsWithin_zeroDsr_iff_cleanRun hend hs

/-! ### What a step runs -/

theorem step_waiting {s : State} (h : s.inputs = []) : step s = .next (idle s) := by
  simp only [step, runNext, h]

theorem step_input {s : State} {a : HostInput} {rest : List HostInput} (h : s.inputs = a :: rest) :
    step s = runInput a (takeInput s rest) := by
  simp only [step, runNext, h]

theorem runWord_command {w : CmdWord} {i : Instr} (h : decode w = .command i) (s : State) : runWord w s = exec i s := by
  simp only [runWord, h]

theorem runWord_illegal {w : CmdWord} {why : IllegalWord} (h : decode w = .illegal why) (s : State) :
    runWord w s = illegalCommand s := by
  simp only [runWord, h, execIllegal]

/-- Settles O8. -/
theorem stepRunsTheDecodedCommand : Obligations.StepRunsTheDecodedCommand := by
  intro s w rest i hs hw
  calc step s = runWord w (takeInput s rest) := step_input hs
    _ = exec i { s with inputs := rest } := runWord_command hw _

theorem exec_answers (i : Instr) (s : State) : ∃ t, exec i s = .next t := by
  obtain ⟨x, rn, rd, h⟩ := exec_completes i s
  exact ⟨_, h⟩

theorem runWord_answers (w : CmdWord) (s : State) : ∃ t, runWord w s = .next t := by
  cases hw : decode w with
  | command i =>
    rw [runWord_command hw]
    exact exec_answers i s
  | illegal why =>
    rw [runWord_illegal hw]
    exact ⟨_, rfl⟩

theorem step_answers (s : State) : ∃ t, step s = .next t := by
  cases hs : s.inputs with
  | nil => exact ⟨_, step_waiting hs⟩
  | cons a rest =>
    rw [step_input hs]
    cases a with
    | command w => exact runWord_answers w _
    | reset => exact ⟨_, rfl⟩

/-- Settles O13: waiting and reset answer at once, and every word runs to the end of a command. -/
theorem nothingEverStops : Obligations.NothingEverStops := ⟨step_answers, exec_answers⟩

end Sys2Proof.Machine


/-! ## State (10_state.md): what `raw` may gain, what a command answers, and what it reads

`RawOnlyGainsBits` is `actsWithin` for the set of the label bits that are 0 at the start: whoever acts within it keeps every 1.
For `NoHiddenStateIsRead` the same command is run from two states side by side; `agree` relates the two commands in progress. -/

namespace Sys2Proof.Machine

/-! ### `raw` only gains 1 bits -/

/-- Label bit `n` of the word is 0. -/
def zeroBit (raw : LabelWord) (n : Nat) : Prop := labelBit raw n = false

/-- From `x` to `y` a command in progress has changed only label bits that were 0. -/
def onlyGains (x y : InFlight) : Prop := actsWithin (zeroBit x.raw) x y

theorem onlyGains_trans {x y z : InFlight} (h : onlyGains x y) (h' : onlyGains y z) : onlyGains x z := by
  obtain ⟨⟨ds, hr⟩, hxy⟩ := h
  obtain ⟨⟨es, hr'⟩, hyz⟩ := h'
  refine ⟨⟨ds ++ es, reported_trans hr hr'⟩, fun n hn hn' hx => ?_⟩
  have hy : labelBit y.raw n = labelBit x.raw n := hxy n hn hn' hx
  have hz : labelBit z.raw n = labelBit y.raw n := hyz n hn hn' (by rwa [zeroBit, hy])
  exact hz.trans hy

theorem report_onlyGains (e : Diag) (x : InFlight) : onlyGains x (report e x) := report_actsWithin _ e x

/-- A guarded write at a range that holds a 1 bit is refused by one guard or another (40_raw_accessor.md R106, R111). -/
theorem writeEffect_keeps_of_not_free {raw raw' : LabelWord} {v : Int} {f l : Nat} {ds : List Diag}
    (h : writeEffect raw v f l raw' ds) (hfree : ¬ bitsFree raw f l) : raw' = raw := by
  obtain ⟨hbounds, hwide, hoccupied, -⟩ := h
  by_cases hl : legalRange f l
  swap
  · exact (hbounds hl).1
  by_cases hv : 0 ≤ v ∧ v < 2 ^ (l + 1 - f)
  · exact (hoccupied hl hv.1 hv.2 hfree).1
  · exact (hwide hl hv).1

/-- The guarded write is why R23 holds: a range it writes was free, so a bit that is 1 lies outside it. -/
theorem setRaw_onlyGains (v : Int) (f l : Nat) (x : InFlight) : onlyGains x (setRaw v f l x) := by
  obtain ⟨ds, hr, hw⟩ := setRaw_spec v f l x
  refine ⟨⟨ds, hr⟩, fun n hn hn' hone => ?_⟩
  by_cases hfree : bitsFree x.raw f l
  · have hout : ¬ (f ≤ n ∧ n ≤ l) := fun hin => hone (hfree n hin.1 hin.2)
    exact writeEffect_sameOutside hw n hn hn' hout
  · rw [writeEffect_keeps_of_not_free hw hfree]

theorem setBcdDigit_onlyGains (d : Int) (f l : Nat) (x : InFlight) : onlyGains x (setBcdDigit d f l x) := by
  unfold setBcdDigit
  split
  · exact report_onlyGains _ x
  · exact setRaw_onlyGains d f l x

theorem setBcdGroups_onlyGains (groups : List (Nat × Nat)) (rem : Nat) (x : InFlight) :
    onlyGains x (setBcdGroups groups rem x).2 := by
  induction groups generalizing rem x with
  | nil => exact actsWithin_refl _ x
  | cons g groups ih => exact onlyGains_trans (setBcdDigit_onlyGains _ g.1 g.2 x) (ih _ _)

theorem setBcd_onlyGains (v radix : Int) (f l : Nat) (x : InFlight) : onlyGains x (setBcd v radix f l x) := by
  have hgroups := setBcdGroups_onlyGains (bcdGroups f l) v.toNat x
  unfold setBcd
  split
  · exact report_onlyGains _ x
  split
  · exact report_onlyGains _ x
  dsimp only
  split
  · exact onlyGains_trans hgroups (report_onlyGains _ _)
  · exact hgroups

theorem writeBnr_onlyGains (encoded : Int) (f l sb : Nat) (x : InFlight) : onlyGains x (writeBnr encoded f l sb x) :=
  onlyGains_trans (setRaw_onlyGains _ f l x) (setRaw_onlyGains _ sb sb _)

theorem setBnr_onlyGains (v r : Ratio) (f l sb : Nat) (x : InFlight) : onlyGains x (setBnr v r f l sb x) := by
  unfold setBnr
  split
  · exact report_onlyGains _ x
  refine onlyGains_trans (warnOverlap_actsWithin _ f l sb x) ?_
  dsimp only
  split
  · exact report_onlyGains _ _
  · exact writeBnr_onlyGains _ f l sb _

theorem execSetpar_endsWithin_zeroBit (p : Int) (s : State) : endsWithin (zeroBit s.raw) s (execSetpar p s) := by
  unfold execSetpar
  split
  · exact illegalCommand_endsWithin _ s
  · exact answerNone_endsWithin (setRaw_onlyGains _ 32 32 _)

theorem execSetbnr_endsWithin_zeroBit (v r : Ratio) (f l sb : Nat) (s : State) :
    endsWithin (zeroBit s.raw) s (execSetbnr v r f l sb s) := by
  unfold execSetbnr
  split
  · exact illegalCommand_endsWithin _ s
  · exact answerNone_endsWithin (setBnr_onlyGains v r f l sb _)

theorem writeField_endsWithin_zeroBit (v : Int) (f l : Nat) (s : State) :
    endsWithin (zeroBit s.raw) s (writeField v f l s) :=
  answerNone_endsWithin (setRaw_onlyGains v f l _)

theorem endsWithin_mono {P Q : Nat → Prop} {s : State} {o : Host.Outcome State Fault Refusal} (h : endsWithin P s o)
    (hPQ : ∀ n, P n → Q n) : endsWithin Q s o := by
  obtain ⟨x, rn, rd, he, hx⟩ := h
  exact ⟨x, rn, rd, he, actsWithin_mono hx hPQ⟩

/-- A command that reads was given no range to write. -/
theorem not_mayWrite_of_isGetter {i : Instr} (hi : isGetter i = true) (n : Nat) : ¬ mayWrite i n := by
  cases i <;> simp_all [isGetter, mayWrite]

theorem exec_getter_endsWithin {i : Instr} (hi : isGetter i = true) (P : Nat → Prop) (s : State) :
    endsWithin P s (exec i s) := by
  have hne : i ≠ .clrdsr := by rintro rfl; cases hi
  exact endsWithin_mono (exec_endsWithin hne s) fun n hn => absurd hn (not_mayWrite_of_isGetter hi n)

/-- `CLR` is the one command that clears a label bit (10_state.md R23). -/
theorem exec_endsWithin_zeroBit {i : Instr} (hclr : i ≠ .clr) (hclrdsr : i ≠ .clrdsr) (s : State) :
    endsWithin (zeroBit s.raw) s (exec i s) := by
  cases i with
  | setraw v f l => exact writeField_endsWithin_zeroBit v f l s
  | setid v => exact writeField_endsWithin_zeroBit v 1 8 s
  | setsdi v => exact writeField_endsWithin_zeroBit v 9 10 s
  | setssm v => exact writeField_endsWithin_zeroBit v 30 31 s
  | setdisc v f l => exact writeField_endsWithin_zeroBit v f l s
  | setdbit v b => exact writeField_endsWithin_zeroBit v b b s
  | setpar p => exact execSetpar_endsWithin_zeroBit p s
  | setbnr v r f l sb => exact execSetbnr_endsWithin_zeroBit v r f l sb s
  | setbcdd d f l => exact answerNone_endsWithin (setBcdDigit_onlyGains d f l _)
  | setbcd v r f l => exact answerNone_endsWithin (setBcd_onlyGains v r f l _)
  | clr => exact absurd rfl hclr
  | clrdsr => exact absurd rfl hclrdsr
  | _ => exact exec_getter_endsWithin rfl _ s

/-- Every label bit that is 1 in `a` is 1 in `b`. -/
def keepsOnes (a b : LabelWord) : Prop := ∀ n, 1 ≤ n → n ≤ 32 → labelBit a n = true → labelBit b n = true

theorem keepsOnes_of_eq {a b : LabelWord} (h : b = a) : keepsOnes a b := fun _ _ _ hn => h ▸ hn

theorem keepsOnes_of_endsWithin {s t : State} (h : endsWithin (zeroBit s.raw) s (.next t)) : keepsOnes s.raw t.raw := by
  obtain ⟨x, rn, rd, he, -, hkeep⟩ := h
  obtain rfl : t = completeCommand s x rn rd := by simpa using he
  intro n hn hn' hone
  have hsame : labelBit x.raw n = labelBit s.raw n := hkeep n hn hn' (by simp [zeroBit, hone])
  exact hsame.trans hone

theorem exec_keepsOnes {i : Instr} (hclr : i ≠ .clr) {s t : State} (h : exec i s = .next t) : keepsOnes s.raw t.raw := by
  by_cases hi : i = .clrdsr
  · subst hi
    exact keepsOnes_of_eq (exec_clrdsr_raw h)
  · exact keepsOnes_of_endsWithin (h ▸ exec_endsWithin_zeroBit hclr hi s)

theorem illegalCommand_keepsOnes {s t : State} (h : illegalCommand s = .next t) : keepsOnes s.raw t.raw :=
  keepsOnes_of_endsWithin (h ▸ illegalCommand_endsWithin _ s)

theorem step_keepsOnes {s t : State} (hreset : ∀ rest, s.inputs ≠ .reset :: rest)
    (hclr : ∀ w rest, s.inputs = .command w :: rest → decode w ≠ .command .clr) (h : step s = .next t) :
    keepsOnes s.raw t.raw := by
  rcases step_cases h with ⟨-, rfl⟩ | ⟨rest, hr, -⟩ | ⟨w, rest, i, hw, hi, he⟩ | ⟨w, rest, why, -, -, he⟩
  · exact keepsOnes_of_eq (idle_raw s)
  · exact absurd hr (hreset rest)
  · exact exec_keepsOnes (s := takeInput s rest) (fun e => hclr w rest hw (e ▸ hi)) he
  · exact illegalCommand_keepsOnes (s := takeInput s rest) he

/-! ### More 1 bits, larger count -/

theorem and_eq_of_keepsOnes {a b : LabelWord} (h : keepsOnes a b) : b &&& a = a := by
  refine label_ext fun n hn hn' => ?_
  have hn := h n hn hn'
  simp only [labelBit, BitVec.getLsbD_and] at hn ⊢
  simpa using hn

theorem popCountBelow_le_of_le (v : Nat) {k m : Nat} (h : k ≤ m) : popCountBelow k v ≤ popCountBelow m v := by
  induction k generalizing m v with
  | zero => exact Nat.zero_le _
  | succ k ih =>
    obtain ⟨m, rfl⟩ : ∃ m', m = m' + 1 := ⟨m - 1, by omega⟩
    exact Nat.add_le_add_left (ih (v / 2) (by omega)) _

theorem popCountBelow_le_of_testBit {a b : Nat} (h : ∀ k, a.testBit k = true → b.testBit k = true) (k : Nat) :
    popCountBelow k a ≤ popCountBelow k b := by
  induction k generalizing a b with
  | zero => exact le_rfl
  | succ k ih =>
    have hlow : a % 2 ≤ b % 2 := by
      have h0 := h 0
      simp only [Nat.testBit_zero, decide_eq_true_eq] at h0
      omega
    have hhigh : ∀ j, (a / 2).testBit j = true → (b / 2).testBit j = true := fun j hj => by
      rw [Nat.testBit_div_two] at hj ⊢
      exact h (j + 1) hj
    exact Nat.add_le_add hlow (ih hhigh)

theorem popCount_le_of_and_eq {a b : Nat} (h : b &&& a = a) : popCount a ≤ popCount b := by
  have hle : a ≤ b := h ▸ Nat.and_le_left
  have hbits : ∀ k, a.testBit k = true → b.testBit k = true := fun k hk => by
    rw [← h, Nat.testBit_and, Bool.and_eq_true] at hk
    exact hk.1
  have hlog : a.log2 ≤ b.log2 := by
    rw [Nat.log2_eq_log_two, Nat.log2_eq_log_two]
    exact Nat.log_mono_right hle
  calc popCount a ≤ popCountBelow (b.log2 + 1) a := popCountBelow_le_of_le a (by omega)
    _ ≤ popCount b := popCountBelow_le_of_testBit hbits _

/-- Settles O17: the guarded write, the only writer but `CLR` and reset, writes free ranges only. -/
theorem rawOnlyGainsBits : Obligations.RawOnlyGainsBits := by
  intro s t hreset hclr h
  have hkeep := step_keepsOnes hreset hclr h
  have hand := and_eq_of_keepsOnes hkeep
  refine ⟨hand, popCount_le_of_and_eq ?_, hkeep⟩
  rw [← BitVec.toNat_and, hand]

/-! ### The response of a command -/

theorem endsWithin_flagsAfter {P : Nat → Prop} {s t : State} {r : Response} (h : endsWithin P s (.next t))
    (hr : t.rsp = some r) : flagsAfter s.dsr t.dsr r.diags := by
  obtain ⟨x, rn, rd, he, ⟨ds, hdiags, hdsr⟩, -⟩ := h
  obtain rfl : t = completeCommand s x rn rd := by simpa using he
  have hlist : r.diags = ds := by
    obtain rfl : _ = r := by simpa using hr
    simpa using hdiags
  rw [completeCommand_dsr, hdsr, hlist]
  exact flagsAfter_foldl s.dsr ds

theorem diagPulses_eq {s : State} {r : Response} (h : s.rsp = some r) : s.diagPulses = r.diags.map diagCode := by
  simp only [State.diagPulses, h]

/-- Settles O19: every command ends in `completeCommand`, and all but `CLRDSR` flag what they report. -/
theorem eachCommandGivesOneResponse : Obligations.EachCommandGivesOneResponse := by
  intro i s t h
  obtain ⟨x, rn, rd, he⟩ := exec_completes i s
  obtain rfl : completeCommand s x rn rd = t := by simpa [he] using h
  have hrsp := completeCommand_rsp s x rn rd
  exact ⟨_, hrsp, completeCommand_responses s x rn rd, completeCommand_inputs s x rn rd, diagPulses_eq hrsp,
    fun hi => endsWithin_flagsAfter (h ▸ exec_endsWithin hi s) hrsp⟩

/-! ### The same command from two states -/

/-- Two commands in progress with the same label and the same diagnostics; where `p` holds, with the same `dsr` too. -/
def agree (p : Prop) (x y : InFlight) : Prop := y.raw = x.raw ∧ y.diags = x.diags ∧ (p → y.dsr = x.dsr)

/-- The same for a part of a command that hands on a number as well. -/
def agreeResult (p : Prop) (a b : Nat × InFlight) : Prop := b.1 = a.1 ∧ agree p a.2 b.2

section
variable {p : Prop} {x y : InFlight}

theorem report_agree (e : Diag) (h : agree p x y) : agree p (report e x) (report e y) := by
  obtain ⟨hraw, hdiags, hdsr⟩ := h
  exact ⟨hraw, by simp [hdiags], fun hp => by simp [hdsr hp]⟩

theorem setRaw_agree (v : Int) (f l : Nat) (h : agree p x y) : agree p (setRaw v f l x) (setRaw v f l y) := by
  obtain ⟨hraw, hdiags, hdsr⟩ := id h
  by_cases hb : legalRange f l
  swap
  · rw [setRaw_out_of_bounds hb, setRaw_out_of_bounds hb]
    exact report_agree _ h
  by_cases hv : 0 ≤ v ∧ v < 2 ^ (l + 1 - f)
  swap
  · rw [setRaw_too_wide hb hv, setRaw_too_wide hb hv]
    exact report_agree _ h
  by_cases hfree : bitsFree x.raw f l
  · rw [setRaw_success hb hv hfree, setRaw_success hb hv (hraw ▸ hfree), hraw]
    exact ⟨rfl, hdiags, hdsr⟩
  · rw [setRaw_occupied hb hv hfree, setRaw_occupied hb hv (hraw ▸ hfree)]
    exact report_agree _ h

theorem getRaw_agree (f l : Nat) (h : agree p x y) : agreeResult p (getRaw f l x) (getRaw f l y) := by
  by_cases hb : legalRange f l
  · rw [getRaw_success hb, getRaw_success hb, h.1]
    exact ⟨rfl, h⟩
  · rw [getRaw_out_of_bounds hb, getRaw_out_of_bounds hb]
    exact ⟨rfl, report_agree _ h⟩

theorem setPar_agree (d : Par) (h : agree p x y) : agree p (setPar d x) (setPar d y) := by
  unfold setPar
  rw [h.1]
  exact setRaw_agree _ 32 32 h

theorem setBcdDigit_agree (d : Int) (f l : Nat) (h : agree p x y) :
    agree p (setBcdDigit d f l x) (setBcdDigit d f l y) := by
  unfold setBcdDigit
  split_ifs
  · exact report_agree _ h
  · exact setRaw_agree d f l h

theorem setBcdGroups_agree (groups : List (Nat × Nat)) (rem : Nat) (h : agree p x y) :
    agreeResult p (setBcdGroups groups rem x) (setBcdGroups groups rem y) := by
  induction groups generalizing rem x y with
  | nil => exact ⟨rfl, h⟩
  | cons g groups ih => exact ih _ (setBcdDigit_agree _ g.1 g.2 h)

theorem setBcd_agree (v radix : Int) (f l : Nat) (h : agree p x y) :
    agree p (setBcd v radix f l x) (setBcd v radix f l y) := by
  obtain ⟨hrem, hgroups⟩ := setBcdGroups_agree (bcdGroups f l) v.toNat h
  unfold setBcd
  dsimp only
  rw [hrem]
  split_ifs
  · exact report_agree _ h
  · exact report_agree _ h
  · exact report_agree _ hgroups
  · exact hgroups

theorem getBcdGroups_agree (groups : List (Nat × Nat)) (k acc : Nat) (h : agree p x y) :
    agreeResult p (getBcdGroups groups k acc x) (getBcdGroups groups k acc y) := by
  induction groups generalizing k acc x y with
  | nil => exact ⟨rfl, h⟩
  | cons g groups ih =>
    obtain ⟨hread, hg⟩ := getRaw_agree g.1 g.2 h
    unfold getBcdGroups
    dsimp only
    rw [hread]
    exact ih _ _ hg

theorem getBcd_agree (radix : Int) (f l : Nat) (h : agree p x y) :
    agreeResult p (getBcd radix f l x) (getBcd radix f l y) := by
  unfold getBcd
  split_ifs
  · exact ⟨rfl, report_agree _ h⟩
  · exact getBcdGroups_agree _ 0 0 h

theorem warnOverlap_agree (f l sb : Nat) (h : agree p x y) : agree p (warnOverlap f l sb x) (warnOverlap f l sb y) := by
  unfold warnOverlap
  split_ifs
  · exact report_agree _ h
  · exact h

theorem writeBnr_agree (encoded : Int) (f l sb : Nat) (h : agree p x y) :
    agree p (writeBnr encoded f l sb x) (writeBnr encoded f l sb y) :=
  setRaw_agree _ sb sb (setRaw_agree _ f l h)

theorem setBnr_agree (v r : Ratio) (f l sb : Nat) (h : agree p x y) :
    agree p (setBnr v r f l sb x) (setBnr v r f l sb y) := by
  have hwarned := warnOverlap_agree f l sb h
  unfold setBnr
  dsimp only
  split_ifs
  · exact report_agree _ h
  · exact report_agree _ hwarned
  · exact writeBnr_agree _ f l sb hwarned

end

/-- The two outcomes, of one command run on `s` and on `s'`, end in agreement and with the same result pair. -/
def agreeOutcome (s s' : State) (o o' : Host.Outcome State Fault Refusal) : Prop :=
  ∃ x y rn rd, o = .next (completeCommand s x rn rd) ∧ o' = .next (completeCommand s' y rn rd) ∧
    agree (s'.dsr = s.dsr) x y

section
variable {s s' : State}

theorem answerRatio_agree {x y : InFlight} (h : agree (s'.dsr = s.dsr) x y) (rn rd : Int) :
    agreeOutcome s s' (answerRatio s x rn rd) (answerRatio s' y rn rd) :=
  ⟨x, y, rn, rd, rfl, rfl, h⟩

theorem answerNone_agree {x y : InFlight} (h : agree (s'.dsr = s.dsr) x y) :
    agreeOutcome s s' (answerNone s x) (answerNone s' y) :=
  answerRatio_agree h 0 1

theorem answerInt_agree {a b : Nat × InFlight} (h : agreeResult (s'.dsr = s.dsr) a b) :
    agreeOutcome s s' (answerInt s a.2 a.1) (answerInt s' b.2 b.1) := by
  obtain ⟨hv, hx⟩ := h
  rw [hv]
  exact answerRatio_agree hx _ 1

theorem startCommand_agree (hraw : s'.raw = s.raw) : agree (s'.dsr = s.dsr) (startCommand s) (startCommand s') :=
  ⟨hraw, rfl, id⟩

theorem writeField_agree (v : Int) (f l : Nat) (hraw : s'.raw = s.raw) :
    agreeOutcome s s' (writeField v f l s) (writeField v f l s') :=
  answerNone_agree (setRaw_agree v f l (startCommand_agree hraw))

theorem readField_agree (f l : Nat) (hraw : s'.raw = s.raw) :
    agreeOutcome s s' (readField f l s) (readField f l s') :=
  answerInt_agree (getRaw_agree f l (startCommand_agree hraw))

theorem illegalCommand_agree (hraw : s'.raw = s.raw) : agreeOutcome s s' (illegalCommand s) (illegalCommand s') :=
  answerNone_agree (report_agree _ (startCommand_agree hraw))

theorem execSetpar_agree (d : Int) (hraw : s'.raw = s.raw) :
    agreeOutcome s s' (execSetpar d s) (execSetpar d s') := by
  unfold execSetpar
  split
  · exact illegalCommand_agree hraw
  · exact answerNone_agree (setPar_agree _ (startCommand_agree hraw))

theorem execSetbnr_agree (v r : Ratio) (f l sb : Nat) (hraw : s'.raw = s.raw) :
    agreeOutcome s s' (execSetbnr v r f l sb s) (execSetbnr v r f l sb s') := by
  unfold execSetbnr
  split_ifs
  · exact illegalCommand_agree hraw
  · exact answerNone_agree (setBnr_agree v r f l sb (startCommand_agree hraw))

theorem execGetbnr_agree (r : Ratio) (f l sb : Nat) (hraw : s'.raw = s.raw) :
    agreeOutcome s s' (execGetbnr r f l sb s) (execGetbnr r f l sb s') := by
  unfold execGetbnr
  split_ifs
  · exact illegalCommand_agree hraw
  · obtain ⟨hmagnitude, h⟩ := getRaw_agree f l (startCommand_agree hraw)
    obtain ⟨hsign, h'⟩ := getRaw_agree sb sb h
    dsimp only
    rw [hmagnitude, hsign]
    exact answerRatio_agree h' _ _

theorem execClr_agree : agreeOutcome s s' (execClr s) (execClr s') := answerNone_agree ⟨rfl, rfl, id⟩

theorem execClrdsr_agree (hraw : s'.raw = s.raw) : agreeOutcome s s' (execClrdsr s) (execClrdsr s') :=
  answerNone_agree ⟨hraw, rfl, fun _ => rfl⟩

theorem execGetword_agree (hraw : s'.raw = s.raw) : agreeOutcome s s' (execGetword s) (execGetword s') :=
  answerInt_agree (a := (s.raw.toNat, startCommand s)) (b := (s'.raw.toNat, startCommand s'))
    ⟨by rw [hraw], startCommand_agree hraw⟩

/-- Only `GETDSR` reads anything but `raw` (10_state.md R24, R28, R32). -/
theorem exec_agree {i : Instr} (hi : i ≠ .getdsr) (hraw : s'.raw = s.raw) :
    agreeOutcome s s' (exec i s) (exec i s') := by
  cases i with
  | setraw v f l => exact writeField_agree v f l hraw
  | setid v => exact writeField_agree v 1 8 hraw
  | setsdi v => exact writeField_agree v 9 10 hraw
  | setssm v => exact writeField_agree v 30 31 hraw
  | setdisc v f l => exact writeField_agree v f l hraw
  | setdbit v b => exact writeField_agree v b b hraw
  | setpar d => exact execSetpar_agree d hraw
  | setbnr v r f l sb => exact execSetbnr_agree v r f l sb hraw
  | setbcdd d f l => exact answerNone_agree (setBcdDigit_agree d f l (startCommand_agree hraw))
  | setbcd v r f l => exact answerNone_agree (setBcd_agree v r f l (startCommand_agree hraw))
  | getraw f l => exact readField_agree f l hraw
  | getid => exact readField_agree 1 8 hraw
  | getsdi => exact readField_agree 9 10 hraw
  | getssm => exact readField_agree 30 31 hraw
  | getpar => exact readField_agree 32 32 hraw
  | getdisc f l => exact readField_agree f l hraw
  | getdbit b => exact readField_agree b b hraw
  | getbnr r f l sb => exact execGetbnr_agree r f l sb hraw
  | getbcd r f l => exact answerInt_agree (getBcd_agree r f l (startCommand_agree hraw))
  | clr => exact execClr_agree
  | getword => exact execGetword_agree hraw
  | clrdsr => exact execClrdsr_agree hraw
  | getdsr => exact absurd rfl hi

end

theorem exec_getdsr (s : State) :
    exec .getdsr s = .next (completeCommand s (startCommand s) (s.dsr.toNat : Int) 1) := rfl

/-- Settles O20: `exec_agree` for every command but `GETDSR`, which keeps both registers and answers `dsr`. -/
theorem noHiddenStateIsRead : Obligations.NoHiddenStateIsRead := by
  intro i s s' hraw
  by_cases hi : i = .getdsr
  · subst hi
    refine ⟨_, _, exec_getdsr s, exec_getdsr s', hraw, fun h => absurd rfl h, fun hdsr => ⟨hdsr, ?_⟩⟩
    simp [hdsr]
  · obtain ⟨x, y, rn, rd, he, he', hraw', hdiags, hdsr⟩ := exec_agree hi hraw
    have hrsp : (completeCommand s' y rn rd).rsp = (completeCommand s x rn rd).rsp := by simp [hdiags]
    exact ⟨_, _, he, he', hraw', fun _ => hrsp, fun h => ⟨hdsr h, hrsp⟩⟩

/-! ### Reading -/

theorem exec_getter_raw {i : Instr} (hi : isGetter i = true) {s t : State} (h : exec i s = .next t) : t.raw = s.raw := by
  obtain ⟨x, rn, rd, he, -, hkeep⟩ := exec_getter_endsWithin hi (fun _ => False) s
  obtain rfl : completeCommand s x rn rd = t := by simpa [he] using h
  exact label_ext fun n hn hn' => hkeep n hn hn' id

/-- Settles O21: the second read starts from the same `raw`, and `GETDSR`'s from the same `dsr`, so it answers the same. -/
theorem readingIsIdempotent : Obligations.ReadingIsIdempotent := by
  intro i s hi
  obtain ⟨t₀, ht₀⟩ := exec_answers i s
  have hraw := exec_getter_raw hi ht₀
  obtain ⟨t, u, ht, hu, -, hrsp, hrsp'⟩ := noHiddenStateIsRead i s t₀ hraw
  obtain rfl : t₀ = t := by simpa [ht₀] using ht
  refine ⟨t₀, u, ht, hraw, hu, (exec_getter_raw hi hu).trans hraw, ?_⟩
  by_cases hg : i = .getdsr
  · subst hg
    have hdsr : t₀.dsr = s.dsr := by cases ht; rfl
    exact (hrsp' hdsr).2
  · exact hrsp hg

/-! ### The presented word, waiting, the codes -/

theorem decodeTableWord_eq_some_iff (nbits w : Nat) (i : Instr) :
    decodeTableWord nbits w = some i ↔ decode (tableWord nbits w) = .command i := by
  unfold decodeTableWord
  cases decode (tableWord nbits w) <;> simp

/-- Settles O9: taking the presented word back from the list gives the original state. -/
theorem stepRunsThePresentedTableWord : Obligations.StepRunsThePresentedTableWord := by
  intro s nbits w i h
  have hw := (decodeTableWord_eq_some_iff nbits w i).1 h
  calc step (s.withFetchWord nbits w)
      = runWord (tableWord nbits w) (takeInput (presentWord s (tableWord nbits w)) s.inputs) :=
        step_input (presentWord_inputs s _)
    _ = exec i s := runWord_command hw s

/-- Settles O12: the waiting step is `idle`, which lowers `rsp_valid` and nothing else. -/
theorem waitingKeepsTheRegisters : Obligations.WaitingKeepsTheRegisters := by
  intro s hs
  exact ⟨idle s, step_waiting hs, idle_raw s, idle_dsr s, rfl, idle_responses s, (idle_inputs s).trans hs⟩

theorem diagCode_toNat (e : Diag) : (diagCode e).toNat = dsrBitOf e + 1 := by cases e <;> rfl

theorem flagIndex_eq (e : Diag) : flagIndex e = dsrBitOf e := by
  rw [flagIndex, diagCode_toNat, Nat.add_sub_cancel]

theorem flagMask_eq (e : Diag) : flagMask e = BitVec.ofNat 8 (2 ^ dsrBitOf e) := by
  rw [flagMask, flagIndex_eq, ← BitVec.twoPow_eq]
  exact BitVec.eq_of_toNat_eq (by simp)

/-- Settles O27: code and mask of each diagnostic by its bit, and a diagnostic for each bit. -/
theorem diagnosticCodesAndMasks : Obligations.DiagnosticCodesAndMasks :=
  ⟨fun e => ⟨diagCode_toNat e, flagMask_eq e⟩, fun _ hk => exists_dsrBitOf_eq hk⟩

end Sys2Proof.Machine


/-! ## Encoding (30_encoding.md): the decoder said once

A word that decodes does so by its opcode alone: `readOperands` takes from the fields what the command named by `OP` uses, and
`keepUsed` is the table of R65 on fields. The statements about `decode` and `encode` follow from these two. -/

namespace Sys2Proof

open Sys2Proof.Machine

set_option exponentiation.threshold 400

/-! ### The decoder on fields -/

/-- The command with the opcode of `i` whose operands are those the fields hold (R61 to R63). -/
def readOperands (x : Fields) : Instr → Instr
  | .setraw _ _ _ => .setraw x.a.toInt x.fb.toNat x.lb.toNat
  | .getraw _ _ => .getraw x.fb.toNat x.lb.toNat
  | .setid _ => .setid x.a.toInt
  | .getid => .getid
  | .setsdi _ => .setsdi x.a.toInt
  | .getsdi => .getsdi
  | .setssm _ => .setssm x.a.toInt
  | .getssm => .getssm
  | .setpar _ => .setpar x.a.toInt
  | .getpar => .getpar
  | .setbnr _ _ _ _ _ =>
    .setbnr ⟨x.a.toInt, x.b.toInt⟩ ⟨x.c.toInt, x.d.toInt⟩ x.fb.toNat x.lb.toNat x.sb.toNat
  | .getbnr _ _ _ _ => .getbnr ⟨x.c.toInt, x.d.toInt⟩ x.fb.toNat x.lb.toNat x.sb.toNat
  | .setbcdd _ _ _ => .setbcdd x.a.toInt x.fb.toNat x.lb.toNat
  | .setbcd _ _ _ _ => .setbcd x.a.toInt x.b.toInt x.fb.toNat x.lb.toNat
  | .getbcd _ _ _ => .getbcd x.b.toInt x.fb.toNat x.lb.toNat
  | .setdisc _ _ _ => .setdisc x.a.toInt x.fb.toNat x.lb.toNat
  | .getdisc _ _ => .getdisc x.fb.toNat x.lb.toNat
  | .setdbit _ _ => .setdbit x.a.toInt x.fb.toNat
  | .getdbit _ => .getdbit x.fb.toNat
  | .clr => .clr
  | .getword => .getword
  | .getdsr => .getdsr
  | .clrdsr => .clrdsr

/-- With `RSV` 0 and the opcode of a command in `OP`, the fields decode to that command. -/
theorem decodeFields_of_opcode {x : Fields} {i : Instr} (hrsv : x.rsv = 0#6) (hop : x.op = opcode i) :
    decodeFields x = .command (readOperands x i) := by
  unfold decodeFields
  rw [if_neg (not_not.2 hrsv), hop]
  cases i <;> rfl

/-- What fields that decode to a command look like. -/
theorem decodeFields_command {x : Fields} {i : Instr} (h : decodeFields x = .command i) :
    x.rsv = 0#6 ∧ x.op = opcode i ∧ readOperands x i = i := by
  unfold decodeFields at h
  split at h
  · cases h
  rename_i hrsv
  split at h <;> cases h
  all_goals
    rename_i hop
    exact ⟨not_not.1 hrsv, BitVec.eq_of_toNat_eq hop, rfl⟩

/-- What fields that decode to no command look like (R66). -/
theorem decodeFields_illegal {x : Fields} {why : IllegalWord} (h : decodeFields x = .illegal why) :
    x.rsv ≠ 0#6 ∨ x.op.toNat = 0 ∨ 0x18 ≤ x.op.toNat := by
  unfold decodeFields at h
  split at h
  · exact .inl ‹_›
  split at h <;> cases h
  right
  simp only [imp_false] at *
  omega

theorem opcode_range (i : Instr) : 1 ≤ (opcode i).toNat ∧ (opcode i).toNat ≤ 0x17 := by
  cases i <;> simp [opcode]

/-! ### The decoder on words -/

theorem decode_command {w : CmdWord} {i : Instr} (h : decode w = .command i) :
    cmdBits w 26 6 = 0 ∧ cmdBits w 0 8 = (opcode i).toNat ∧ readOperands (splitWord w) i = i := by
  obtain ⟨hrsv, hop, hi⟩ := decodeFields_command h
  refine ⟨?_, ?_, hi⟩ <;> rw [← toNat_extract]
  · exact congrArg BitVec.toNat hrsv
  · exact congrArg BitVec.toNat hop

theorem decode_illegal {w : CmdWord} {why : IllegalWord} (h : decode w = .illegal why) : illegalWord w := by
  simp only [illegalWord, ← toNat_extract]
  rcases decodeFields_illegal h with hrsv | hzero | hhigh
  · exact .inr (.inr fun h0 => hrsv (BitVec.eq_of_toNat_eq h0))
  · exact .inl hzero
  · exact .inr (.inl hhigh)

theorem illegalWord_iff (w : CmdWord) : illegalWord w ↔ ∃ why, decode w = .illegal why := by
  refine ⟨fun hill => ?_, fun ⟨_, h⟩ => decode_illegal h⟩
  cases hw : decode w with
  | illegal why => exact ⟨why, rfl⟩
  | command i =>
    obtain ⟨hrsv, hop, -⟩ := decode_command hw
    obtain ⟨hlow, hhigh⟩ := opcode_range i
    unfold illegalWord at hill
    omega

theorem exists_command_of_legal {w : CmdWord} (h : ¬ illegalWord w) : ∃ i, decode w = .command i := by
  cases hw : decode w with
  | command i => exact ⟨i, rfl⟩
  | illegal why => exact absurd (decode_illegal hw) h

/-! ### Encoding, then decoding -/

/-- The canonical fields hold the operands of a command that a word can hold. -/
theorem readOperands_encodeFields {i : Instr} (h : i.wf = true) : readOperands (encodeFields i) i = i := by
  cases i <;> simp only [Instr.wf, Ratio.encodable, Bool.and_eq_true] at h <;>
    simp [readOperands, encodeFields, bareFields, toInt_intField, toNat_bitField, h]

/-- Settles O1: the canonical fields have the command's opcode, `RSV` 0 and the command's operands. -/
theorem decodeUndoesEncode : Obligations.DecodeUndoesEncode := by
  intro i hi
  have hrsv : (encodeFields i).rsv = 0#6 := by cases i <;> rfl
  have hop : (encodeFields i).op = opcode i := by cases i <;> rfl
  calc decode (encode i) = decodeFields (encodeFields i) := decode_encode_fields i
    _ = .command (readOperands (encodeFields i) i) := decodeFields_of_opcode hrsv hop
    _ = .command i := by rw [readOperands_encodeFields hi]

/-! ### Decoded operands fit their fields -/

theorem intEncodable_toInt (v : BitVec 64) : intEncodable v.toInt = true := by
  have hlow : -2 ^ 63 ≤ v.toInt := BitVec.le_toInt v
  have hhigh : v.toInt < 2 ^ 63 := BitVec.toInt_lt
  simpa [intEncodable] using ⟨hlow, hhigh⟩

theorem bitEncodable_toNat (n : BitVec 6) : bitEncodable n.toNat = true := decide_eq_true n.isLt

theorem readOperands_wf (x : Fields) (i : Instr) : (readOperands x i).wf = true := by
  cases i <;> simp [readOperands, Instr.wf, Ratio.encodable, intEncodable_toInt, bitEncodable_toNat]

/-- Settles O2: a decoded command holds the operands of its fields. -/
theorem decodedCommandsFitTheirFields : Obligations.DecodedCommandsFitTheirFields := by
  intro w i h
  obtain ⟨-, -, hi⟩ := decode_command h
  rw [← hi]
  exact readOperands_wf _ _

/-! ### The mask test -/

/-- The mask of R64 keeps `RSV` and `OP`, in place. -/
theorem toNat_and_headerMask (w : CmdWord) :
    (w &&& 0xFC0000FF#288).toNat = cmdBits w 26 6 * 2 ^ 26 + cmdBits w 0 8 := by
  have hmask : 0xFC0000FF = ((2 ^ 6 - 1) <<< 26) ||| (2 ^ 8 - 1) := by decide
  have hrsv : w.toNat &&& ((2 ^ 6 - 1) <<< 26) = (w.toNat >>> 26 % 2 ^ 6) <<< 26 := by
    refine Nat.eq_of_testBit_eq fun k => ?_
    rw [← Nat.and_two_pow_sub_one_eq_mod]
    simp only [Nat.testBit_and, Nat.testBit_shiftLeft, Nat.testBit_shiftRight]
    by_cases hk : 26 ≤ k <;> simp [hk]
  have hop : w.toNat % 2 ^ 8 < 2 ^ 26 := by omega
  calc (w &&& 0xFC0000FF#288).toNat = w.toNat &&& 0xFC0000FF := by simp
    _ = (w.toNat >>> 26 % 2 ^ 6) <<< 26 ||| w.toNat % 2 ^ 8 := by
      rw [hmask, Nat.and_or_distrib_left, hrsv, Nat.and_two_pow_sub_one_eq_mod]
    _ = cmdBits w 26 6 * 2 ^ 26 + cmdBits w 0 8 := by
      rw [← Nat.shiftLeft_add_eq_or_of_lt hop, Nat.shiftLeft_eq, Nat.shiftRight_eq_div_pow]
      simp [cmdBits]

/-- Settles O3: below `2^26` the masked word is `OP`, and `RSV` is 0. -/
theorem maskTestSelectsTheCommand : Obligations.MaskTestSelectsTheCommand := by
  intro w op hlow hhigh
  rw [toNat_and_headerMask]
  constructor
  · intro h
    obtain ⟨hrsv, hop⟩ : cmdBits w 26 6 = 0 ∧ cmdBits w 0 8 = op := by omega
    obtain ⟨i, hi⟩ := exists_command_of_legal (w := w) (by unfold illegalWord; omega)
    obtain ⟨-, hopcode, -⟩ := decode_command hi
    exact ⟨i, hi, hopcode.symm.trans hop⟩
  · rintro ⟨i, hi, rfl⟩
    obtain ⟨hrsv, hop, -⟩ := decode_command hi
    omega

/-! ### Ignored fields -/

/-- The fields with those not listed in `used` set to 0; `OP` and `RSV` stay. -/
def keepUsed (used : List Field) (x : Fields) : Fields where
  op := x.op
  rsv := x.rsv
  fb := if .fb ∈ used then x.fb else 0#6
  lb := if .lb ∈ used then x.lb else 0#6
  sb := if .sb ∈ used then x.sb else 0#6
  a := if .a ∈ used then x.a else 0#64
  b := if .b ∈ used then x.b else 0#64
  c := if .c ∈ used then x.c else 0#64
  d := if .d ∈ used then x.d else 0#64

/-- A command reads no field but those R65 lists for it. -/
theorem readOperands_keepUsed (x : Fields) (i : Instr) :
    readOperands (keepUsed (usedFields i) x) i = readOperands x i := by
  cases i <;> rfl

/-- A command writes no field of its canonical word but those R65 lists for it. -/
theorem keepUsed_encodeFields (i : Instr) : keepUsed (usedFields i) (encodeFields i) = encodeFields i := by
  cases i <;> rfl

/-- The fields as numbers, each under its name. -/
def fieldNat (x : Fields) : Field → Nat
  | .fb => x.fb.toNat
  | .lb => x.lb.toNat
  | .sb => x.sb.toNat
  | .a => x.a.toNat
  | .b => x.b.toNat
  | .c => x.c.toNat
  | .d => x.d.toNat

theorem fieldAt_eq (w : CmdWord) (f : Field) : fieldAt w f = fieldNat (splitWord w) f := by
  cases f <;> exact (toNat_extract w _ _).symm

theorem fieldNat_keepUsed {used : List Field} {f : Field} (h : f ∉ used) (x : Fields) :
    fieldNat (keepUsed used x) f = 0 := by
  cases f <;> simp [fieldNat, keepUsed, h]

theorem keepUsed_congr {used : List Field} {x y : Fields} (hop : y.op = x.op) (hrsv : y.rsv = x.rsv)
    (h : ∀ f ∈ used, fieldNat y f = fieldNat x f) : keepUsed used y = keepUsed used x := by
  have keep {n : Nat} {u v : BitVec n} {f : Field} (hf : f ∈ used → v.toNat = u.toNat) :
      (if f ∈ used then v else 0#n) = if f ∈ used then u else 0#n :=
    ite_congr rfl (fun hmem => BitVec.eq_of_toNat_eq (hf hmem)) fun _ => rfl
  simp only [keepUsed, Fields.mk.injEq]
  exact ⟨hop, keep (h .fb), keep (h .lb), keep (h .sb), hrsv, keep (h .a), keep (h .b), keep (h .c), keep (h .d)⟩

/-- Settles O4: both words keep the same used fields, and those are all that is read; an unused field of the canonical word is
one `keepUsed` clears. -/
theorem ignoredFieldsHaveNoEffect : Obligations.IgnoredFieldsHaveNoEffect := by
  refine ⟨fun w w' i h hop hrsv hused => ?_, fun i f hf => ?_⟩
  · obtain ⟨hrsv0, hopi, hi⟩ := decodeFields_command h
    simp only [← toNat_extract] at hop hrsv
    have hop' : (splitWord w').op = (splitWord w).op := BitVec.eq_of_toNat_eq hop
    have hrsv' : (splitWord w').rsv = (splitWord w).rsv := BitVec.eq_of_toNat_eq hrsv
    have hkeep : keepUsed (usedFields i) (splitWord w') = keepUsed (usedFields i) (splitWord w) :=
      keepUsed_congr hop' hrsv' (by simpa only [fieldAt_eq] using hused)
    calc decode w' = .command (readOperands (splitWord w') i) :=
          decodeFields_of_opcode (hrsv'.trans hrsv0) (hop'.trans hopi)
      _ = .command (readOperands (splitWord w) i) := by
          rw [← readOperands_keepUsed, hkeep, readOperands_keepUsed]
      _ = .command i := by rw [hi]
  · rw [fieldAt_eq, encode, splitWord_joinFields, ← keepUsed_encodeFields]
    exact fieldNat_keepUsed hf _

/-- Settles O5: the fields of the printed words, evaluated; the way back of R74's word is `decodeUndoesEncode`. -/
theorem workedWordsDecode : Obligations.WorkedWordsDecode := by
  have hword : encode (.setbnr ⟨140, 1⟩ ⟨4096, 32768⟩ 14 28 29) =
      0x000000000000800000000000000010000000000000000001000000000000008C01D70E0B#288 := by decide
  exact ⟨hword, hword ▸ decodeUndoesEncode _ (by decide), by decide, by decide, by decide, by decide⟩

end Sys2Proof


/-! ## Illegal commands and the invariant (30_encoding.md R66, R67, R71)

A command whose operands R67 calls illegal is the illegal command; every other command only adds diagnostics other than
`IllegalCommandError`, at most 17 of them, which `addsLegal` counts through the operations. -/

namespace Sys2Proof.Machine

/-! ### Illegal words and operands -/

/-- The operands R67 calls illegal, zero resolution of `SETBNR` included. -/
def illegalOperands : Instr → Prop
  | .setbnr v r _ _ _ => v.den = 0 ∨ r.den = 0 ∨ r.num = 0
  | .getbnr r _ _ _ => r.den = 0
  | .setpar p => p ≠ 0 ∧ p ≠ 1
  | _ => False

theorem execSetbnr_illegal {v r : Ratio} (f l sb : Nat) (h : v.den = 0 ∨ r.den = 0 ∨ r.num = 0) (s : State) :
    execSetbnr v r f l sb s = illegalCommand s := by
  unfold execSetbnr
  split
  · rfl
  · have hnum : r.num = 0 := by tauto
    rw [setBnr, if_pos hnum, illegalCommand]

theorem parityOf_eq_none_iff (p : Int) : parityOf p = none ↔ p ≠ 0 ∧ p ≠ 1 := by
  unfold parityOf
  split_ifs <;> simp_all

/-- Illegal operands make a command the illegal command (R67). -/
theorem exec_illegalOperands {i : Instr} (h : illegalOperands i) (s : State) : exec i s = illegalCommand s := by
  cases i with
  | setbnr v r f l sb => exact execSetbnr_illegal f l sb h s
  | getbnr r f l sb => exact if_pos h
  | setpar p =>
    show execSetpar p s = _
    rw [execSetpar, (parityOf_eq_none_iff p).2 h]
  | _ => exact absurd h id

/-- Settles O7: the three forms are `illegalOperands`, which make the command the illegal command. -/
theorem illegalOperandsOnlyReport : Obligations.IllegalOperandsOnlyReport := by
  intro s i h
  have hi : illegalOperands i := by
    rcases h with ⟨v, r, f, l, sb, rfl, h⟩ | ⟨r, f, l, sb, rfl, h⟩ | ⟨p, rfl, h⟩
    all_goals exact h
  rw [exec_illegalOperands hi]
  exact illegalCommand_spec s

/-- A step that runs a command word as the illegal command. -/
theorem step_illegalCommand {s : State} {w : CmdWord} {rest : List HostInput} (hs : s.inputs = .command w :: rest)
    (hw : runWord w (takeInput s rest) = illegalCommand (takeInput s rest)) :
    ∃ t, step s = .next t ∧ t.raw = s.raw ∧ t.inputs = rest ∧
      commandEnds (takeInput s rest) t 0 1 [.illegalCommandError] := by
  obtain ⟨t, ht, hraw, hflags, hinputs, hresponse⟩ := illegalCommand_spec (takeInput s rest)
  have hstep : step s = .next t := (step_input hs).trans (hw.trans ht)
  exact ⟨t, hstep, hraw, hinputs, hflags, hinputs, hresponse⟩

/-- Settles O6: a word the decoder rejects runs as the illegal command. -/
theorem illegalWordsOnlyReport : Obligations.IllegalWordsOnlyReport := by
  intro w
  refine ⟨illegalWord_iff w, fun hill s rest hs => ?_⟩
  obtain ⟨why, hw⟩ := (illegalWord_iff w).1 hill
  exact step_illegalCommand hs (runWord_illegal hw _)

/-- A small operand word is the same number signed and unsigned. -/
theorem toInt_eq_natCast_iff (v : BitVec 64) {n : Nat} (hn : n < 2 ^ 63) : v.toInt = n ↔ v.toNat = n := by
  have := v.isLt
  rw [BitVec.toInt_eq_toNat_cond]
  split <;> omega

/-- For a word that decodes, the operand conditions on its fields are those on its command. -/
theorem illegalCommandWord_iff {w : CmdWord} {i : Instr} (h : decode w = .command i) :
    illegalCommandWord w ↔ illegalOperands i := by
  obtain ⟨-, hop, hi⟩ := decode_command h
  have hlegal : ¬ illegalWord w := by
    rw [illegalWord_iff, h]
    rintro ⟨_, hw⟩
    cases hw
  have hzero (v : BitVec 64) : v.toInt = 0 ↔ v.toNat = 0 := toInt_eq_natCast_iff v (n := 0) (by norm_num)
  have hone (v : BitVec 64) : v.toInt = 1 ↔ v.toNat = 1 := toInt_eq_natCast_iff v (n := 1) (by norm_num)
  simp only [illegalCommandWord, hlegal, false_or, hop, fieldAt_eq, fieldNat]
  rw [← hi]
  cases i with
  | setbnr v r f l sb => simp [opcode, illegalOperands, readOperands, hzero, or_comm]
  | getbnr r f l sb => simp [opcode, illegalOperands, readOperands, hzero]
  | setpar p => simp [opcode, illegalOperands, readOperands, hzero, hone]
  | _ => simp [opcode, illegalOperands, readOperands]

/-! ### Legal commands: their diagnostics -/

/-- From `x` to `y` a command in progress has reported at most `n` diagnostics, none of them `IllegalCommandError`. -/
def addsLegal (n : Nat) (x y : InFlight) : Prop :=
  ∃ ds, y.diags = x.diags ++ ds ∧ ds.length ≤ n ∧ .illegalCommandError ∉ ds

theorem addsLegal_refl (n : Nat) (x : InFlight) : addsLegal n x x := ⟨[], by simp⟩

theorem addsLegal_trans {n m : Nat} {x y z : InFlight} (h : addsLegal n x y) (h' : addsLegal m y z) :
    addsLegal (n + m) x z := by
  obtain ⟨ds, hxy, hn, hds⟩ := h
  obtain ⟨es, hyz, hm, hes⟩ := h'
  refine ⟨ds ++ es, by rw [hyz, hxy, List.append_assoc], ?_, by simp [hds, hes]⟩
  rw [List.length_append]
  omega

theorem addsLegal_mono {n m : Nat} {x y : InFlight} (h : addsLegal n x y) (hnm : n ≤ m) : addsLegal m x y := by
  obtain ⟨ds, hxy, hn, hds⟩ := h
  exact ⟨ds, hxy, hn.trans hnm, hds⟩

theorem report_addsLegal {e : Diag} (he : e ≠ .illegalCommandError) (x : InFlight) : addsLegal 1 x (report e x) :=
  ⟨[e], report_diags e x, le_rfl, by simpa using he.symm⟩

theorem setRaw_addsLegal (v : Int) (f l : Nat) (x : InFlight) : addsLegal 1 x (setRaw v f l x) := by
  unfold setRaw
  split
  · exact report_addsLegal (by decide) x
  split
  · exact report_addsLegal (by decide) x
  split
  · exact report_addsLegal (by decide) x
  · exact addsLegal_refl 1 x

theorem getRaw_addsLegal (f l : Nat) (x : InFlight) : addsLegal 1 x (getRaw f l x).2 := by
  unfold getRaw
  split
  · exact report_addsLegal (by decide) x
  · exact addsLegal_refl 1 x

theorem setBcdDigit_addsLegal (d : Int) (f l : Nat) (x : InFlight) : addsLegal 1 x (setBcdDigit d f l x) := by
  unfold setBcdDigit
  split_ifs
  · exact report_addsLegal (by decide) x
  · exact setRaw_addsLegal d f l x

theorem setBcdGroups_addsLegal (groups : List (Nat × Nat)) (rem : Nat) (x : InFlight) :
    addsLegal groups.length x (setBcdGroups groups rem x).2 := by
  induction groups generalizing rem x with
  | nil => exact addsLegal_refl 0 x
  | cons g groups ih =>
    rw [List.length_cons, Nat.add_comm]
    exact addsLegal_trans (setBcdDigit_addsLegal _ g.1 g.2 x) (ih _ _)

theorem getBcdGroups_addsLegal (groups : List (Nat × Nat)) (k acc : Nat) (x : InFlight) :
    addsLegal groups.length x (getBcdGroups groups k acc x).2 := by
  induction groups generalizing k acc x with
  | nil => exact addsLegal_refl 0 x
  | cons g groups ih =>
    rw [List.length_cons, Nat.add_comm]
    exact addsLegal_trans (getRaw_addsLegal g.1 g.2 x) (ih _ _ _)

/-- A field within the 6-bit bit numbers has at most 16 digit groups. -/
theorem length_bcdGroups_le {f l : Nat} (hl : bitEncodable l = true) : (bcdGroups f l).length ≤ 16 := by
  have hl' : l < 64 := by simpa [bitEncodable] using hl
  rw [bcdGroups_eq, List.length_map, List.length_range']
  omega

theorem setBcd_addsLegal (v radix : Int) {f l : Nat} (hl : bitEncodable l = true) (x : InFlight) :
    addsLegal 17 x (setBcd v radix f l x) := by
  have hgroups := addsLegal_mono (setBcdGroups_addsLegal (bcdGroups f l) v.toNat x) (length_bcdGroups_le hl)
  unfold setBcd
  dsimp only
  split_ifs
  · exact addsLegal_mono (report_addsLegal (by decide) x) (by decide)
  · exact addsLegal_mono (report_addsLegal (by decide) x) (by decide)
  · exact addsLegal_trans hgroups (report_addsLegal (by decide) _)
  · exact addsLegal_mono hgroups (by decide)

theorem getBcd_addsLegal (radix : Int) {f l : Nat} (hl : bitEncodable l = true) (x : InFlight) :
    addsLegal 17 x (getBcd radix f l x).2 := by
  unfold getBcd
  split_ifs
  · exact addsLegal_mono (report_addsLegal (by decide) x) (by decide)
  · exact addsLegal_mono (getBcdGroups_addsLegal _ 0 0 x) ((length_bcdGroups_le hl).trans (by decide))

theorem warnOverlap_addsLegal (f l sb : Nat) (x : InFlight) : addsLegal 1 x (warnOverlap f l sb x) := by
  unfold warnOverlap
  split_ifs
  · exact report_addsLegal (by decide) x
  · exact addsLegal_refl 1 x

theorem setBnr_addsLegal (v : Ratio) {r : Ratio} (hnum : r.num ≠ 0) (f l sb : Nat) (x : InFlight) :
    addsLegal 3 x (setBnr v r f l sb x) := by
  rw [setBnr, if_neg hnum]
  refine addsLegal_trans (n := 1) (m := 2) (warnOverlap_addsLegal f l sb x) ?_
  dsimp only
  split_ifs
  · exact addsLegal_mono (report_addsLegal (by decide) _) (by decide)
  · exact addsLegal_trans (setRaw_addsLegal _ f l _) (setRaw_addsLegal _ sb sb _)

/-! ### Legal commands: their responses -/

/-- The outcome is the end of a command, run on `s`, with at most 17 diagnostics, none of them `IllegalCommandError`, and a
denominator other than 0. -/
def answersLegally (s : State) (o : Host.Outcome State Fault Refusal) : Prop :=
  ∃ x rn rd, o = .next (completeCommand s x rn rd) ∧ addsLegal 17 (startCommand s) x ∧ (BitVec.ofInt 64 rd).toInt ≠ 0

theorem answerInt_legally {s : State} {x : InFlight} {n : Nat} (h : addsLegal n (startCommand s) x) (hn : n ≤ 17)
    (v : Nat) : answersLegally s (answerInt s x v) :=
  ⟨x, v, 1, rfl, addsLegal_mono h hn, by decide⟩

theorem answerNone_legally {s : State} {x : InFlight} {n : Nat} (h : addsLegal n (startCommand s) x) (hn : n ≤ 17) :
    answersLegally s (answerNone s x) :=
  answerInt_legally h hn 0

theorem writeField_legally (v : Int) (f l : Nat) (s : State) : answersLegally s (writeField v f l s) :=
  answerNone_legally (setRaw_addsLegal v f l _) (by decide)

theorem readField_legally (f l : Nat) (s : State) : answersLegally s (readField f l s) :=
  answerInt_legally (getRaw_addsLegal f l _) (by decide) _

theorem execSetpar_legally {p : Int} (hp : ¬ (p ≠ 0 ∧ p ≠ 1)) (s : State) : answersLegally s (execSetpar p s) := by
  unfold execSetpar
  split
  · exact absurd ((parityOf_eq_none_iff p).1 ‹_›) hp
  · exact answerNone_legally (setRaw_addsLegal _ 32 32 _) (by decide)

theorem execSetbnr_legally {v r : Ratio} (h : ¬ (v.den = 0 ∨ r.den = 0 ∨ r.num = 0)) (f l sb : Nat) (s : State) :
    answersLegally s (execSetbnr v r f l sb s) := by
  obtain ⟨hvden, hden, hnum⟩ : v.den ≠ 0 ∧ r.den ≠ 0 ∧ r.num ≠ 0 := by tauto
  rw [execSetbnr, if_neg (by tauto)]
  exact answerNone_legally (setBnr_addsLegal v hnum f l sb _) (by decide)

/-- The denominator of `GETBNR` is the operand word D (R71, 43_bnr.md R143). -/
theorem execGetbnr_legally {r : Ratio} (hden : r.den ≠ 0) (hfits : intEncodable r.den = true) (f l sb : Nat)
    (s : State) : answersLegally s (execGetbnr r f l sb s) := by
  rw [execGetbnr, if_neg hden]
  refine ⟨_, _, _, rfl, ?_, ?_⟩
  · exact addsLegal_mono (addsLegal_trans (getRaw_addsLegal f l _) (getRaw_addsLegal sb sb _)) (by decide)
  · rwa [show BitVec.ofInt 64 r.den = intField r.den from rfl, toInt_intField hfits]

/-- Every command of a word, its operands legal, answers legally (R71, R206, R207). -/
theorem exec_legally {i : Instr} (hwf : i.wf = true) (hlegal : ¬ illegalOperands i) (s : State) :
    answersLegally s (exec i s) := by
  cases i with
  | setraw v f l => exact writeField_legally v f l s
  | setid v => exact writeField_legally v 1 8 s
  | setsdi v => exact writeField_legally v 9 10 s
  | setssm v => exact writeField_legally v 30 31 s
  | setdisc v f l => exact writeField_legally v f l s
  | setdbit v b => exact writeField_legally v b b s
  | setpar p => exact execSetpar_legally hlegal s
  | setbnr v r f l sb => exact execSetbnr_legally hlegal f l sb s
  | setbcdd d f l => exact answerNone_legally (setBcdDigit_addsLegal d f l _) (by decide)
  | setbcd v r f l =>
    have hl : bitEncodable l = true := by simp_all [Instr.wf]
    exact answerNone_legally (setBcd_addsLegal v r hl _) le_rfl
  | getraw f l => exact readField_legally f l s
  | getid => exact readField_legally 1 8 s
  | getsdi => exact readField_legally 9 10 s
  | getssm => exact readField_legally 30 31 s
  | getpar => exact readField_legally 32 32 s
  | getdisc f l => exact readField_legally f l s
  | getdbit b => exact readField_legally b b s
  | getbnr r f l sb =>
    have hfits : intEncodable r.den = true := by simp_all [Instr.wf, Ratio.encodable]
    exact execGetbnr_legally hlegal hfits f l sb s
  | getbcd r f l =>
    have hl : bitEncodable l = true := by simp_all [Instr.wf]
    exact answerInt_legally (getBcd_addsLegal r hl _) le_rfl _
  | clr => exact answerNone_legally (n := 0) ⟨[], by simp⟩ (by decide)
  | getword => exact answerInt_legally (addsLegal_refl 0 _) (by decide) _
  | getdsr => exact answerInt_legally (addsLegal_refl 0 _) (by decide) _
  | clrdsr => exact answerNone_legally (n := 0) ⟨[], by simp⟩ (by decide)

/-- The response of a legal answer. -/
theorem answersLegally_response {s t : State} (h : answersLegally s (.next t)) :
    ∃ r, t.rsp = some r ∧ r.rd.toInt ≠ 0 ∧ r.diags.length ≤ 17 ∧ .illegalCommandError ∉ r.diags := by
  obtain ⟨x, rn, rd, he, ⟨ds, hdiags, hlen, hds⟩, hrd⟩ := h
  obtain rfl : t = completeCommand s x rn rd := by simpa using he
  obtain rfl : x.diags = ds := by simpa using hdiags
  exact ⟨_, completeCommand_rsp s x rn rd, hrd, hlen, hds⟩

/-- Settles O51: an illegal word runs as the illegal command by the decoder or by its meaning's first test; every other word
answers legally. -/
theorem illegalCommandWordsAndNoOthersReportIt : Obligations.IllegalCommandWordsAndNoOthersReportIt := by
  intro s w rest hs
  cases hw : decode w with
  | illegal why =>
    have hill : illegalCommandWord w := .inl (decode_illegal hw)
    exact ⟨fun _ => step_illegalCommand hs (runWord_illegal hw _), fun hn => absurd hill hn⟩
  | command i =>
    have hrun := runWord_command hw (takeInput s rest)
    rw [illegalCommandWord_iff hw]
    refine ⟨fun hill => step_illegalCommand hs (hrun.trans (exec_illegalOperands hill _)), fun hlegal => ?_⟩
    obtain ⟨t, ht⟩ := exec_answers i (takeInput s rest)
    obtain ⟨r, hr, -, -, hdiags⟩ :=
      answersLegally_response (ht ▸ exec_legally (decodedCommandsFitTheirFields w i hw) hlegal (takeInput s rest))
    exact ⟨t, r, (step_input hs).trans (hrun.trans ht), hr, hdiags⟩

/-! ### The invariant -/

/-- One more response keeps the invariant when it is well formed and accounts for every flag that is newly set. -/
theorem inv_of_response {s t : State} {r : Response} (hs : Inv s) (hrsp : t.rsp = some r)
    (htrace : t.responses = s.responses ++ [r]) (hrd : r.rd.toInt ≠ 0) (hlen : r.diags.length ≤ 17)
    (hflags : ∀ e, t.dsr.getLsbD (dsrBitOf e) = true → s.dsr.getLsbD (dsrBitOf e) = true ∨ e ∈ r.diags) : Inv t := by
  obtain ⟨hwell, -, hreported⟩ := hs
  refine ⟨?_, ?_, ?_⟩
  · simpa [htrace, or_imp, forall_and, hrd, hlen] using hwell
  · simp [hrsp, htrace]
  · intro e he
    rw [htrace]
    rcases hflags e he with hold | hnew
    · obtain ⟨q, hq, hmem⟩ := hreported e hold
      exact ⟨q, List.mem_append_left _ hq, hmem⟩
    · exact ⟨r, by simp, hnew⟩

theorem inv_of_no_response {s t : State} (hs : Inv s) (hrsp : t.rsp = none) (htrace : t.responses = s.responses)
    (hflags : ∀ e, t.dsr.getLsbD (dsrBitOf e) = true → s.dsr.getLsbD (dsrBitOf e) = true) : Inv t := by
  obtain ⟨hwell, -, hreported⟩ := hs
  refine ⟨htrace ▸ hwell, by simp [hrsp], fun e he => ?_⟩
  rw [htrace]
  exact hreported e (hflags e he)

theorem inv_takeInput {s : State} (hs : Inv s) (rest : List HostInput) : Inv (takeInput s rest) := hs

theorem flagsAfter_source {d d' : DsrWord} {ds : List Diag} (h : flagsAfter d d' ds) (e : Diag)
    (he : d'.getLsbD (dsrBitOf e) = true) : d.getLsbD (dsrBitOf e) = true ∨ e ∈ ds := by
  simpa [h e] using he

theorem illegalCommand_inv {s t : State} (hs : Inv s) (h : illegalCommand s = .next t) : Inv t := by
  obtain ⟨t', ht', -, hflags, -, r, hrsp, htrace, -, hrd, hdiags⟩ := illegalCommand_spec s
  obtain rfl : t' = t := by simpa [ht'] using h
  exact inv_of_response hs hrsp htrace (by rw [hrd]; decide) (by simp [hdiags])
    (hdiags ▸ flagsAfter_source hflags)

/-- `CLRDSR` clears all flags; every other command flags what it reports. -/
theorem exec_flags_source {i : Instr} {s t : State} {r : Response} (h : exec i s = .next t) (hr : t.rsp = some r)
    (e : Diag) (he : t.dsr.getLsbD (dsrBitOf e) = true) : s.dsr.getLsbD (dsrBitOf e) = true ∨ e ∈ r.diags := by
  by_cases hi : i = .clrdsr
  · subst hi
    cases h
    simp at he
  · exact flagsAfter_source (endsWithin_flagsAfter (h ▸ exec_endsWithin hi s) hr) e he

theorem exec_inv {i : Instr} (hwf : i.wf = true) {s t : State} (hs : Inv s) (h : exec i s = .next t) : Inv t := by
  by_cases hill : illegalOperands i
  · rw [exec_illegalOperands hill] at h
    exact illegalCommand_inv hs h
  · obtain ⟨r, hrsp, hrd, hlen, -⟩ := answersLegally_response (h ▸ exec_legally hwf hill s)
    obtain ⟨r', hrsp', htrace, -⟩ := eachCommandGivesOneResponse i s t h
    obtain rfl : r = r' := by simpa [hrsp] using hrsp'
    exact inv_of_response hs hrsp htrace hrd hlen (exec_flags_source h hrsp)

/-- Settles O14: waiting and reset give no response and set no flag; a command gives one that accounts for its flags. -/
theorem everyStepKeepsTheInvariant : Obligations.EveryStepKeepsTheInvariant := by
  intro s t hs h
  rcases step_cases h with ⟨-, rfl⟩ | ⟨rest, -, rfl⟩ | ⟨w, rest, i, -, hi, he⟩ | ⟨w, rest, why, -, -, he⟩
  · exact inv_of_no_response hs (idle_rsp s) (idle_responses s) fun _ => id
  · exact inv_of_no_response hs (resetBlock_rsp _) (resetBlock_responses _) (by simp)
  · exact exec_inv (decodedCommandsFitTheirFields w i hi) (inv_takeInput hs rest) he
  · exact illegalCommand_inv (inv_takeInput hs rest) he

end Sys2Proof.Machine


/-! ## The raw accessor (40_raw_accessor.md): the helpers, one guarded write, one read

`writeField_spec` and `readField_spec` say what a write and a read do in every case. The consequences of R110 and R111 use one
case of each: a write into a free range, a write over a 1 bit, and a read of a legal range that holds a given value. -/

namespace Sys2Proof.Machine

/-! ### The helpers -/

theorem highestSetBit_of_pos {v : Nat} (hv : 0 < v) : highestSetBit v = (v.log2 : Int) := if_neg hv.ne'

/-- Settles O24: above 0 the index is the binary logarithm. -/
theorem highestSetBitIsTheTopBit : Obligations.HighestSetBitIsTheTopBit :=
  ⟨rfl, fun v hv => ⟨v.log2, highestSetBit_of_pos hv, Nat.log2_self_le hv.ne', Nat.lt_log2_self⟩⟩

/-- The recursion peels off the lowest bit, and so does the list of bit numbers. -/
theorem popCountBelow_eq_length_filter (k v : Nat) :
    popCountBelow k v = ((List.range k).filter fun j => v.testBit j).length := by
  induction k generalizing v with
  | zero => rfl
  | succ k ih =>
    have hlow : v % 2 = (if v.testBit 0 then 1 else 0) := by
      rw [Nat.testBit_zero]
      rcases Nat.mod_two_eq_zero_or_one v with h | h <;> simp [h]
    have hhigh : (v / 2).testBit = v.testBit ∘ Nat.succ := funext fun j => Nat.testBit_div_two v j
    rw [popCountBelow, ih, hlow, hhigh, List.range_succ_eq_map, List.filter_cons, List.filter_map, Function.comp_def]
    split <;> simp [Nat.add_comm]

theorem popCountBelow_of_zero (k : Nat) : popCountBelow k 0 = 0 := by
  simp [popCountBelow_eq_length_filter]

/-- Every bound above the top bit gives the same count. -/
theorem popCountBelow_eq_of_lt {v k m : Nat} (hk : v < 2 ^ k) (hm : v < 2 ^ m) : popCountBelow k v = popCountBelow m v := by
  induction k generalizing v m with
  | zero =>
    obtain rfl : v = 0 := by simpa using hk
    rw [popCountBelow_of_zero, popCountBelow_of_zero]
  | succ k ih =>
    cases m with
    | zero =>
      obtain rfl : v = 0 := by simpa using hm
      rw [popCountBelow_of_zero, popCountBelow_of_zero]
    | succ m => rw [popCountBelow, popCountBelow, ih (m := m) (by omega) (by omega)]

/-- Settles O25: the count up to the top bit is the count up to any bound of `v`. -/
theorem popCountCountsTheOneBits : Obligations.PopCountCountsTheOneBits := by
  intro v m hv
  calc popCount v = popCountBelow m v := popCountBelow_eq_of_lt Nat.lt_log2_self hv
    _ = ((List.range m).filter fun k => v.testBit k).length := popCountBelow_eq_length_filter m v

/-- Settles O26. -/
theorem maskRangeKeepsTheRangeInPlace : Obligations.MaskRangeKeepsTheRangeInPlace := by
  intro word f l n h hn hn'
  rw [labelBit_maskRange word h hn hn', Bool.and_comm]

/-! ### The commands that are one write or one read -/

theorem exec_setraw (v : Int) (f l : Nat) (s : State) : exec (.setraw v f l) s = writeField v f l s := rfl

theorem exec_setdisc (v : Int) (f l : Nat) (s : State) : exec (.setdisc v f l) s = writeField v f l s := rfl

theorem exec_setdbit (v : Int) (b : Nat) (s : State) : exec (.setdbit v b) s = writeField v b b s := rfl

theorem exec_getraw (f l : Nat) (s : State) : exec (.getraw f l) s = readField f l s := rfl

theorem exec_getdisc (f l : Nat) (s : State) : exec (.getdisc f l) s = readField f l s := rfl

theorem exec_getdbit (b : Nat) (s : State) : exec (.getdbit b) s = readField b b s := rfl

/-- Settles O28: the three commands are the same guarded write. -/
theorem writesFollowTheGuards : Obligations.WritesFollowTheGuards := by
  intro s v f l
  rw [exec_setraw, exec_setdisc, exec_setdbit]
  exact ⟨writeField_spec v f l s, writeField_spec v f l s, writeField_spec v f f s⟩

/-- Settles O29: the three commands are the same read. -/
theorem readsReturnTheField : Obligations.ReadsReturnTheField := by
  intro s f l
  rw [exec_getraw, exec_getdisc, exec_getdbit]
  exact ⟨readField_spec f l s, readField_spec f l s, readField_spec f f s⟩

/-! ### What a range holds -/

/-- A range determines the value it holds, among those that fit it. -/
theorem fieldHolds_unique {raw : LabelWord} {f l v w : Nat} (hv : v < 2 ^ (l + 1 - f)) (hw : w < 2 ^ (l + 1 - f))
    (hfv : fieldHolds raw f l v) (hfw : fieldHolds raw f l w) : v = w := by
  refine Nat.eq_of_testBit_eq fun i => ?_
  by_cases hi : i < l + 1 - f
  · have hbit := (hfv (f + i) (by omega) (by omega)).symm.trans (hfw (f + i) (by omega) (by omega))
    rwa [Nat.add_sub_cancel_left] at hbit
  · have hle : 2 ^ (l + 1 - f) ≤ 2 ^ i := Nat.pow_le_pow_right (by decide) (by omega)
    rw [Nat.testBit_lt_two_pow (hv.trans_le hle), Nat.testBit_lt_two_pow (hw.trans_le hle)]

theorem fieldHolds_of_sameInside {a b : LabelWord} {f l v : Nat} (hs : sameInside a b f l) (h : fieldHolds a f l v) :
    fieldHolds b f l v := fun n hf hl => (hs n hf hl).trans (h n hf hl)

theorem sameInside_of_disjoint {a b : LabelWord} {f l f' l' : Nat} (hs : sameOutside a b f l) (hlegal : legalRange f' l')
    (hd : l' < f ∨ l < f') : sameInside a b f' l' :=
  sameInside_of_sameOutside hs (by omega) (by omega)

/-! ### Single cases of a write and a read -/

theorem writeField_free {v f l : Nat} {s : State} (hlegal : legalRange f l) (hv : v < 2 ^ (l + 1 - f))
    (hfree : bitsFree s.raw f l) :
    ∃ t, writeField v f l s = .next t ∧ fieldHolds t.raw f l v ∧ sameOutside s.raw t.raw f l ∧ commandEnds s t 0 1 [] := by
  obtain ⟨t, ds, ht, ⟨-, -, -, hwritten⟩, hends⟩ := writeField_spec v f l s
  obtain ⟨hholds, hout, rfl⟩ := hwritten hlegal (Int.natCast_nonneg v) (mod_cast hv) hfree
  exact ⟨t, ht, hholds, hout, hends⟩

theorem writeField_occupied {v f l : Nat} {s : State} (hlegal : legalRange f l) (hv : v < 2 ^ (l + 1 - f))
    (hocc : ¬ bitsFree s.raw f l) :
    ∃ t, writeField v f l s = .next t ∧ t.raw = s.raw ∧ commandEnds s t 0 1 [.rangeOccupiedError] := by
  obtain ⟨t, ds, ht, ⟨-, -, hoccupied, -⟩, hends⟩ := writeField_spec v f l s
  obtain ⟨hraw, rfl⟩ := hoccupied hlegal (Int.natCast_nonneg v) (mod_cast hv) hocc
  exact ⟨t, ht, hraw, hends⟩

theorem readField_of_fieldHolds {v f l : Nat} {s : State} (hlegal : legalRange f l) (hv : v < 2 ^ (l + 1 - f))
    (hholds : fieldHolds s.raw f l v) : ∃ u, readField f l s = .next u ∧ commandEnds s u v 1 [] := by
  obtain ⟨u, w, ds, hu, -, ⟨-, hread⟩, hends⟩ := readField_spec f l s
  obtain ⟨hw, hholds', rfl⟩ := hread hlegal
  obtain rfl : w = v := fieldHolds_unique hw hv hholds' hholds
  exact ⟨u, hu, hends⟩

/-- Settles O32: the write leaves the value in its range and every disjoint range as it was, and a read answers what its range
holds. -/
theorem writeThenReadReturnsTheValue : Obligations.WriteThenReadReturnsTheValue := by
  intro s v f l hlegal hv hfree
  simp only [exec_setraw, exec_getraw]
  obtain ⟨t, ht, hholds, hout, hends⟩ := writeField_free hlegal hv hfree
  obtain ⟨u, hu, huends⟩ := readField_of_fieldHolds hlegal hv hholds
  refine ⟨t, u, ht, hends, hu, huends, fun f' l' hlegal' hd => ?_⟩
  have hlt := fieldOf_lt s.raw hlegal'
  have hbefore := fieldHolds_fieldOf s.raw hlegal'
  have hafter := fieldHolds_of_sameInside (sameInside_of_disjoint hout hlegal' hd) hbefore
  obtain ⟨a, ha, haends⟩ := readField_of_fieldHolds hlegal' hlt hbefore
  obtain ⟨b, hb, hbends⟩ := readField_of_fieldHolds hlegal' hlt hafter
  exact ⟨a, b, fieldOf s.raw f' l', ha, haends, hb, hbends⟩

/-- Settles O33: a range with a 1 bit in it is not free. -/
theorem overlapIsRejected : Obligations.OverlapIsRejected := by
  intro s v f l n hlegal hv hf hl hbit
  have hocc : ¬ bitsFree s.raw f l := fun hfree => by simp [hfree n hf hl] at hbit
  rw [exec_setraw]
  exact writeField_occupied hlegal hv hocc

end Sys2Proof.Machine

/-! ## The fixed fields (41_fixed_fields.md, and `GETPAR` of 42_parity.md)

The ranges of 20_memory.md R42 are legal, so the bounds guard of a write or a read on one of them always passes: what is left of
the general specification is `writeField_of_legal` and `readField_of_legal`, without `RangeError`. -/

namespace Sys2Proof.Machine

/-! ### A write and a read of a legal range -/

theorem writeField_of_legal {f l : Nat} (hlegal : legalRange f l) (v : Int) (s : State) :
    ∃ t ds, writeField v f l s = .next t ∧ commandEnds s t 0 1 ds ∧
      (v < 0 ∨ 2 ^ (l + 1 - f) ≤ v → t.raw = s.raw ∧ ds = [.valueTooWideError]) ∧
      (0 ≤ v → v < 2 ^ (l + 1 - f) → ¬ bitsFree s.raw f l → t.raw = s.raw ∧ ds = [.rangeOccupiedError]) ∧
      (0 ≤ v → v < 2 ^ (l + 1 - f) → bitsFree s.raw f l →
        fieldHolds t.raw f l v.toNat ∧ sameOutside s.raw t.raw f l ∧ ds = []) := by
  obtain ⟨t, ds, ht, ⟨-, htooWide, hoccupied, hwritten⟩, hends⟩ := writeField_spec v f l s
  exact ⟨t, ds, ht, hends, fun hv => htooWide hlegal (by omega), hoccupied hlegal, hwritten hlegal⟩

theorem readField_of_legal {f l : Nat} (hlegal : legalRange f l) (s : State) :
    ∃ (t : State) (v : Nat), readField f l s = .next t ∧ t.raw = s.raw ∧ v < 2 ^ (l + 1 - f) ∧ fieldHolds s.raw f l v ∧
      commandEnds s t v 1 [] := by
  obtain ⟨t, v, ds, ht, hraw, ⟨-, hread⟩, hends⟩ := readField_spec f l s
  obtain ⟨hv, hholds, rfl⟩ := hread hlegal
  exact ⟨t, v, ht, hraw, hv, hholds, hends⟩

/-! ### The commands on their fixed ranges -/

theorem exec_setid (v : Int) (s : State) : exec (.setid v) s = writeField v 1 8 s := rfl

theorem exec_setsdi (v : Int) (s : State) : exec (.setsdi v) s = writeField v 9 10 s := rfl

theorem exec_setssm (v : Int) (s : State) : exec (.setssm v) s = writeField v 30 31 s := rfl

theorem exec_getid (s : State) : exec .getid s = readField 1 8 s := rfl

theorem exec_getsdi (s : State) : exec .getsdi s = readField 9 10 s := rfl

theorem exec_getssm (s : State) : exec .getssm s = readField 30 31 s := rfl

theorem exec_getpar (s : State) : exec .getpar s = readField 32 32 s := rfl

/-- Settles O30: each setter is a guarded write to a legal range. -/
theorem fixedFieldWrites : Obligations.FixedFieldWrites := by
  rintro s v i f l (⟨rfl, rfl, rfl⟩ | ⟨rfl, rfl, rfl⟩ | ⟨rfl, rfl, rfl⟩)
  · rw [exec_setid]
    exact writeField_of_legal (by decide) v s
  · rw [exec_setsdi]
    exact writeField_of_legal (by decide) v s
  · rw [exec_setssm]
    exact writeField_of_legal (by decide) v s

/-- Settles O31: each getter is a read of a legal range. -/
theorem fixedFieldReads : Obligations.FixedFieldReads := by
  rintro s i f l (⟨rfl, rfl, rfl⟩ | ⟨rfl, rfl, rfl⟩ | ⟨rfl, rfl, rfl⟩ | ⟨rfl, rfl, rfl⟩)
  · rw [exec_getid]
    exact readField_of_legal (by decide) s
  · rw [exec_getsdi]
    exact readField_of_legal (by decide) s
  · rw [exec_getssm]
    exact readField_of_legal (by decide) s
  · rw [exec_getpar]
    exact readField_of_legal (by decide) s

end Sys2Proof.Machine

/-! ## Parity (42_parity.md)

`SETPAR` is one guarded write of a single bit to label bit 32. Into a clear bit 32 it adds that bit to the population count, and
the bit is chosen so that the sum has the desired parity. -/

namespace Sys2Proof.Machine

/-! ### The population count and a label's top bit -/

theorem popCountBelow_succ_eq_add_top (k v : Nat) : popCountBelow (k + 1) v = popCountBelow k v + (v.testBit k).toNat := by
  rw [popCountBelow_eq_length_filter, popCountBelow_eq_length_filter, List.range_succ, List.filter_append, List.length_append]
  cases hv : v.testBit k <;> simp [hv]

theorem popCountBelow_congr {k a b : Nat} (h : ∀ j, j < k → a.testBit j = b.testBit j) :
    popCountBelow k a = popCountBelow k b := by
  rw [popCountBelow_eq_length_filter, popCountBelow_eq_length_filter,
    List.filter_congr fun j hj => h j (List.mem_range.1 hj)]

theorem popCount_label (w : LabelWord) : popCount w.toNat = popCountBelow 31 w.toNat + (labelBit w 32).toNat :=
  calc popCount w.toNat = popCountBelow (31 + 1) w.toNat := popCountBelow_eq_of_lt Nat.lt_log2_self w.isLt
    _ = popCountBelow 31 w.toNat + (w.toNat.testBit 31).toNat := popCountBelow_succ_eq_add_top 31 w.toNat

theorem popCountBelow_of_sameOutside {a b : LabelWord} (h : sameOutside a b 32 32) :
    popCountBelow 31 b.toNat = popCountBelow 31 a.toNat :=
  popCountBelow_congr fun j hj => h (j + 1) (by omega) (by omega) (by omega)

/-- Writing the bit `v` into a clear label bit 32 adds `v` to the population count. -/
theorem popCount_of_fieldHolds_top {a b : LabelWord} {v : Nat} (hv : v < 2) (hclear : labelBit a 32 = false)
    (hholds : fieldHolds b 32 32 v) (hout : sameOutside a b 32 32) : popCount b.toNat = popCount a.toNat + v := by
  have htop : (labelBit b 32).toNat = v := by
    rw [hholds 32 le_rfl le_rfl]
    exact (Nat.toNat_testBit v 0).trans (by omega)
  rw [popCount_label, popCount_label, popCountBelow_of_sameOutside hout, htop, hclear, Bool.toNat_false, Nat.add_zero]

theorem bitsFree_single (raw : LabelWord) (n : Nat) : bitsFree raw n n ↔ labelBit raw n = false :=
  ⟨fun h => h n le_rfl le_rfl, fun h _ hf hl => le_antisymm hf hl ▸ h⟩

/-! ### The parity operand and the bit chosen (R130, R131) -/

theorem exists_parityBit_eq {p : Nat} (hp : p < 2) : ∃ d, parityBit d = p := by
  obtain rfl | rfl : p = 0 ∨ p = 1 := by omega
  · exact ⟨.even, rfl⟩
  · exact ⟨.odd, rfl⟩

theorem parityOf_parityBit (d : Par) : parityOf (parityBit d) = some d := by
  cases d <;> rfl

theorem parityBit_lt_two (d : Par) : parityBit d < 2 := by
  cases d <;> decide

theorem parityChoice_lt_two (d : Par) (n : Nat) : parityChoice d n < 2 := by
  have hd := parityBit_lt_two d
  unfold parityChoice
  split <;> omega

/-- The bit chosen for a word of `n` 1 bits makes the total count odd or even as desired. -/
theorem add_parityChoice_mod_two (d : Par) (n : Nat) : (n + parityChoice d n) % 2 = parityBit d := by
  have hd := parityBit_lt_two d
  unfold parityChoice
  split <;> omega

theorem exec_setpar (d : Par) (s : State) :
    exec (.setpar (parityBit d)) s = writeField (parityChoice d (popCount s.raw.toNat)) 32 32 s := by
  show execSetpar (parityBit d) s = _
  rw [execSetpar, parityOf_parityBit]
  rfl

/-- Settles O34: the write into the clear bit adds the bit chosen to the count. -/
theorem setparMakesTheParity : Obligations.SetparMakesTheParity := by
  intro s p hp hclear
  obtain ⟨d, rfl⟩ := exists_parityBit_eq hp
  have hbit := parityChoice_lt_two d (popCount s.raw.toNat)
  obtain ⟨t, ht, hholds, hout, hends⟩ := writeField_free (by decide) hbit ((bitsFree_single s.raw 32).2 hclear)
  have hcount := popCount_of_fieldHolds_top hbit hclear hholds hout
  exact ⟨t, (exec_setpar d s).trans ht, hcount ▸ add_parityChoice_mod_two d _, hout, hends⟩

/-- Settles O35: whichever bit is chosen, it fits one bit and meets an occupied one. -/
theorem setparNeverRewritesBit32 : Obligations.SetparNeverRewritesBit32 := by
  intro s p hp hset
  obtain ⟨d, rfl⟩ := exists_parityBit_eq hp
  have hocc : ¬ bitsFree s.raw 32 32 := by simp [bitsFree_single, hset]
  rw [exec_setpar]
  exact writeField_occupied (by decide) (parityChoice_lt_two d _) hocc

end Sys2Proof.Machine

/-! ## BNR (43_bnr.md)

The encoder is integer division, compared here with the exact quotient through the floor of its absolute value (R8, R141).
`exec_setbnr_too_large` and `exec_setbnr_in_range` say what `SETBNR` does with legal operands, `getbnrReturnsTheSignedProduct` what
`GETBNR` does; each corner rule is one case of the two guarded writes, or of the two reads. -/

namespace Sys2Proof.Machine

/-! ### Truncation toward zero -/

/-- Truncating division is the floor on absolute values. -/
theorem natAbs_tdiv_eq_floor (a b : Int) : ((a.tdiv b).natAbs : Int) = ⌊|(a : ℚ) / (b : ℚ)|⌋ := by
  have habs (c : Int) : |(c : ℚ)| = (c.natAbs : ℚ) := by
    rw [← Int.cast_abs, ← Int.natCast_natAbs, Int.cast_natCast]
  rw [abs_div, habs a, habs b, Rat.floor_natCast_div_natCast, Int.natAbs_tdiv]
  rfl

/-- Truncating division has the sign of the quotient, or is 0. -/
theorem tdiv_sign_cases (a b : Int) :
    a.tdiv b = 0 ∨ (0 < a.tdiv b ∧ 0 < (a : ℚ) / (b : ℚ)) ∨ (a.tdiv b < 0 ∧ (a : ℚ) / (b : ℚ) < 0) := by
  have hsign := Int.sign_tdiv a b
  split at hsign
  · exact .inl (Int.sign_eq_zero_iff_zero.1 hsign)
  rw [← Int.sign_mul] at hsign
  rcases lt_trichotomy (a.tdiv b) 0 with h | h | h
  · have hab : a * b < 0 := Int.sign_eq_neg_one_iff_neg.1 (hsign ▸ Int.sign_eq_neg_one_of_neg h)
    exact .inr (.inr ⟨h, div_neg_iff.2 (mod_cast mul_neg_iff.1 hab)⟩)
  · exact .inl h
  · have hab : 0 < a * b := Int.sign_eq_one_iff_pos.1 (hsign ▸ Int.sign_eq_one_of_pos h)
    exact .inr (.inl ⟨h, div_pos_iff.2 (mod_cast mul_pos_iff.1 hab)⟩)

/-- The encoded integer is truncating division of the two integers whose quotient is the exact quotient of the operands. -/
theorem ratioValue_div (v r : Ratio) :
    ratioValue v / ratioValue r = ((v.num * r.den : Int) : ℚ) / ((v.den * r.num : Int) : ℚ) := by
  push_cast
  exact div_div_div_eq _ _ _ _

/-! ### The encoder (R141) -/

theorem natAbs_bnrEncode (v r : Ratio) : ((bnrEncode v r).natAbs : Int) = ⌊|ratioValue v / ratioValue r|⌋ := by
  rw [ratioValue_div]
  exact natAbs_tdiv_eq_floor _ _

theorem bnrEncode_sign_cases (v r : Ratio) :
    bnrEncode v r = 0 ∨ (0 < bnrEncode v r ∧ 0 < ratioValue v / ratioValue r) ∨
      (bnrEncode v r < 0 ∧ ratioValue v / ratioValue r < 0) := by
  rw [ratioValue_div]
  exact tdiv_sign_cases _ _

theorem abs_bnrEncode (v r : Ratio) : |(bnrEncode v r : ℚ)| = (⌊|ratioValue v / ratioValue r|⌋ : ℚ) := by
  rw [← natAbs_bnrEncode, Int.natCast_natAbs, Int.cast_abs]

theorem abs_bnrEncode_le (v r : Ratio) : |(bnrEncode v r : ℚ)| ≤ |ratioValue v / ratioValue r| :=
  abs_bnrEncode v r ▸ Int.floor_le _

theorem lt_abs_bnrEncode_add_one (v r : Ratio) : |ratioValue v / ratioValue r| < |(bnrEncode v r : ℚ)| + 1 :=
  abs_bnrEncode v r ▸ Int.lt_floor_add_one _

theorem bnrEncode_neg_iff (v r : Ratio) : bnrEncode v r < 0 ↔ ratioValue v / ratioValue r ≤ -1 := by
  have hfloor := natAbs_bnrEncode v r
  have hone : 1 ≤ (bnrEncode v r).natAbs ↔ 1 ≤ |ratioValue v / ratioValue r| := by
    rw [← Nat.one_le_cast (α := Int), hfloor, Int.le_floor, Int.cast_one]
  rcases bnrEncode_sign_cases v r with h | ⟨h, hq⟩ | ⟨h, hq⟩
  · have hlt : |ratioValue v / ratioValue r| < 1 := not_le.1 fun hle => by simpa [h] using hone.2 hle
    have hq := (abs_lt.1 hlt).1
    exact iff_of_false (by omega) (not_le.2 hq)
  · exact iff_of_false (by omega) (by linarith)
  · rw [abs_of_neg hq] at hone
    exact iff_of_true h (by linarith [hone.1 (by omega)])

/-- Settles O36: the absolute value of the encoded integer is the floor of that of the quotient, and the signs agree. -/
theorem encoderTruncatesTowardZero : Obligations.EncoderTruncatesTowardZero := by
  intro v r _ _ _
  refine ⟨abs_bnrEncode_le v r, lt_abs_bnrEncode_add_one v r, ?_, natAbs_bnrEncode v r, bnrEncode_neg_iff v r⟩
  exact_mod_cast bnrEncode_sign_cases v r

/-- The quotient and the encoded integer lie on the same side of 0, so their distance is that of the absolute values. -/
theorem abs_div_sub_bnrEncode_lt_one (v r : Ratio) : |ratioValue v / ratioValue r - (bnrEncode v r : ℚ)| < 1 := by
  have hle := abs_bnrEncode_le v r
  have hlt := lt_abs_bnrEncode_add_one v r
  rcases bnrEncode_sign_cases v r with h | ⟨h, hq⟩ | ⟨h, hq⟩
  · simpa [h] using hlt
  · have ht : (0 : ℚ) < bnrEncode v r := mod_cast h
    rw [abs_of_pos ht, abs_of_pos hq] at hle hlt
    exact abs_lt.2 ⟨by linarith, by linarith⟩
  · have ht : (bnrEncode v r : ℚ) < 0 := mod_cast h
    rw [abs_of_neg ht, abs_of_neg hq] at hle hlt
    exact abs_lt.2 ⟨by linarith, by linarith⟩

theorem ratioValue_ne_zero {r : Ratio} (hden : r.den ≠ 0) (hnum : r.num ≠ 0) : ratioValue r ≠ 0 :=
  div_ne_zero (mod_cast hnum) (mod_cast hden)

/-- The value differs from what its encoding stands for by less than one resolution step (R147). -/
theorem abs_sub_bnrEncode_mul_lt (v : Ratio) {r : Ratio} (hr : ratioValue r ≠ 0) :
    |ratioValue v - (bnrEncode v r : ℚ) * ratioValue r| < |ratioValue r| :=
  calc |ratioValue v - (bnrEncode v r : ℚ) * ratioValue r|
      = |ratioValue v / ratioValue r - (bnrEncode v r : ℚ)| * |ratioValue r| := by
        rw [← abs_mul, sub_mul, div_mul_cancel₀ _ hr]
    _ < 1 * |ratioValue r| := mul_lt_mul_of_pos_right (abs_div_sub_bnrEncode_lt_one v r) (abs_pos.2 hr)
    _ = |ratioValue r| := one_mul _

theorem bnrEncode_of_multiple {v r : Ratio} {k : Int} (hr : ratioValue r ≠ 0)
    (hk : ratioValue v = (k : ℚ) * ratioValue r) : bnrEncode v r = k := by
  have hlt := abs_div_sub_bnrEncode_lt_one v r
  rw [hk, mul_div_cancel_right₀ _ hr] at hlt
  have hint : |k - bnrEncode v r| < 1 := mod_cast hlt
  exact (sub_eq_zero.1 (Int.abs_lt_one_iff.1 hint)).symm

theorem ratioValue_eq_bnrEncode_mul_iff (v : Ratio) {r : Ratio} (hr : ratioValue r ≠ 0) :
    ratioValue v = (bnrEncode v r : ℚ) * ratioValue r ↔ ∃ k : ℤ, ratioValue v = (k : ℚ) * ratioValue r := by
  constructor
  · exact fun h => ⟨_, h⟩
  · rintro ⟨k, hk⟩
    rwa [bnrEncode_of_multiple hr hk]

/-! ### Single cases of the guarded writes -/

theorem writeEffect_free {raw raw' : LabelWord} {v f l : Nat} {ds : List Diag} (h : writeEffect raw v f l raw' ds)
    (hlegal : legalRange f l) (hv : v < 2 ^ (l + 1 - f)) (hfree : bitsFree raw f l) :
    fieldHolds raw' f l v ∧ sameOutside raw raw' f l ∧ ds = [] := by
  obtain ⟨-, -, -, hwritten⟩ := h
  exact hwritten hlegal (Int.natCast_nonneg v) (mod_cast hv) hfree

/-- Writing 0, refused or not, changes no bit. -/
theorem writeEffect_zero_keeps {raw raw' : LabelWord} {f l : Nat} {ds : List Diag} (h : writeEffect raw 0 f l raw' ds) :
    raw' = raw := by
  by_cases hlegal : legalRange f l
  swap
  · exact (h.1 hlegal).1
  by_cases hfree : bitsFree raw f l
  swap
  · exact writeEffect_keeps_of_not_free h hfree
  obtain ⟨hholds, hout, -⟩ := writeEffect_free (v := 0) h hlegal (Nat.two_pow_pos _) hfree
  refine label_ext fun n hn hn' => ?_
  by_cases hin : f ≤ n ∧ n ≤ l
  · rw [hholds n hin.1 hin.2, hfree n hin.1 hin.2, Nat.zero_testBit]
  · exact hout n hn hn' hin

theorem ite_one_zero_eq_toNat (p : Prop) [Decidable p] : (if p then 1 else 0 : Int) = ((decide p).toNat : Nat) := by
  split <;> simp [*]

section
variable {raw raw' : LabelWord} {p : Prop} [Decidable p] {n : Nat} {ds : List Diag}

/-- The sign write into a free bit. -/
theorem writeEffect_bit_free (h : writeEffect raw (if p then 1 else 0) n n raw' ds) (hn : legalRange n n)
    (hfree : labelBit raw n = false) : labelBit raw' n = decide p ∧ sameOutside raw raw' n n ∧ ds = [] := by
  rw [ite_one_zero_eq_toNat] at h
  have hfits : (decide p).toNat < 2 ^ (n + 1 - n) := by
    rw [Nat.add_sub_cancel_left]
    exact Bool.toNat_lt _
  obtain ⟨hholds, hout, hds⟩ := writeEffect_free h hn hfits ((bitsFree_single raw n).2 hfree)
  refine ⟨?_, hout, hds⟩
  rw [hholds n le_rfl le_rfl, Nat.sub_self, Nat.testBit_zero]
  cases decide p <;> rfl

/-- The sign write over a 1 bit. -/
theorem writeEffect_bit_occupied (h : writeEffect raw (if p then 1 else 0) n n raw' ds) (hn : legalRange n n)
    (hset : labelBit raw n = true) : raw' = raw ∧ ds = [.rangeOccupiedError] := by
  obtain ⟨-, -, hoccupied, -⟩ := h
  have hocc : ¬ bitsFree raw n n := by simp [bitsFree_single, hset]
  refine hoccupied hn ?_ ?_ hocc
  · split <;> decide
  · rw [Nat.add_sub_cancel_left]
    split <;> decide

end

/-! ### `SETBNR` with legal operands (R142) -/

/-- The diagnostics of the overlap test (R144). -/
def overlapWarning (f l sb : Nat) : List Diag := if f ≤ sb ∧ sb ≤ l then [.signBitOverlapError] else []

theorem overlapWarning_inside {f l sb : Nat} (h : f ≤ sb ∧ sb ≤ l) : overlapWarning f l sb = [.signBitOverlapError] :=
  if_pos h

theorem overlapWarning_outside {f l sb : Nat} (h : ¬ (f ≤ sb ∧ sb ≤ l)) : overlapWarning f l sb = [] := if_neg h

theorem setBnr_too_large {v r : Ratio} {f l sb : Nat} (x : InFlight) (hnum : r.num ≠ 0)
    (hlarge : 2 ^ (l + 1 - f) ≤ (bnrEncode v r).natAbs) :
    setBnr v r f l sb x = report .valueOutOfRangeError (warnOverlap f l sb x) :=
  (if_neg hnum).trans (if_pos ((capacity_lt_iff f l _).2 hlarge))

theorem setBnr_in_range {v r : Ratio} {f l sb : Nat} (x : InFlight) (hnum : r.num ≠ 0)
    (hfits : (bnrEncode v r).natAbs < 2 ^ (l + 1 - f)) :
    setBnr v r f l sb x = writeBnr (bnrEncode v r) f l sb (warnOverlap f l sb x) :=
  (if_neg hnum).trans (if_neg ((capacity_lt_iff f l _).not.2 (not_le.2 hfits)))

theorem exec_setbnr {v r : Ratio} (hv : v.den ≠ 0) (hr : r.den ≠ 0) (f l sb : Nat) (s : State) :
    exec (.setbnr v r f l sb) s = answerNone s (setBnr v r f l sb (startCommand s)) :=
  if_neg (not_or.2 ⟨hv, hr⟩)

section
variable {v r : Ratio} {f l sb : Nat} (s : State) (hv : v.den ≠ 0) (hr : r.den ≠ 0) (hnum : r.num ≠ 0)
include hv hr hnum

theorem exec_setbnr_too_large (hlarge : 2 ^ (l + 1 - f) ≤ (bnrEncode v r).natAbs) :
    ∃ t, exec (.setbnr v r f l sb) s = .next t ∧ t.raw = s.raw ∧
      commandEnds s t 0 1 (overlapWarning f l sb ++ [.valueOutOfRangeError]) := by
  obtain ⟨hraw, hwarn⟩ := warnOverlap_spec f l sb (startCommand s)
  rw [exec_setbnr hv hr, setBnr_too_large _ hnum hlarge]
  exact ⟨_, rfl, hraw, commandEnds_complete (reported_trans hwarn (reported_one _ _)) toInt_rn_zero toInt_rd_one⟩

theorem exec_setbnr_in_range (hfits : (bnrEncode v r).natAbs < 2 ^ (l + 1 - f)) :
    ∃ t mid magnitude sign, exec (.setbnr v r f l sb) s = .next t ∧
      writeEffect s.raw (bnrEncode v r).natAbs f l mid magnitude ∧
      writeEffect mid (if bnrEncode v r < 0 then 1 else 0) sb sb t.raw sign ∧
      commandEnds s t 0 1 (overlapWarning f l sb ++ magnitude ++ sign) := by
  obtain ⟨hraw, hwarn⟩ := warnOverlap_spec f l sb (startCommand s)
  obtain ⟨mid, magnitude, sign, hreported, hmagnitude, hsign⟩ :=
    writeBnr_spec (bnrEncode v r) f l sb (warnOverlap f l sb (startCommand s))
  rw [hraw] at hmagnitude
  rw [exec_setbnr hv hr, setBnr_in_range _ hnum hfits]
  refine ⟨_, mid, magnitude, sign, rfl, hmagnitude, hsign, ?_⟩
  rw [List.append_assoc]
  exact commandEnds_complete (reported_trans hwarn hreported) toInt_rn_zero toInt_rd_one

/-- The magnitude written to a free legal range, then the sign write as its guards decide. -/
theorem exec_setbnr_free (hlegal : legalRange f l) (hfree : bitsFree s.raw f l)
    (hfits : (bnrEncode v r).natAbs < 2 ^ (l + 1 - f)) :
    ∃ t mid sign, exec (.setbnr v r f l sb) s = .next t ∧
      fieldHolds mid f l (bnrEncode v r).natAbs ∧ sameOutside s.raw mid f l ∧
      writeEffect mid (if bnrEncode v r < 0 then 1 else 0) sb sb t.raw sign ∧
      commandEnds s t 0 1 (overlapWarning f l sb ++ sign) := by
  obtain ⟨t, mid, magnitude, sign, ht, hmagnitude, hsign, hends⟩ :=
    exec_setbnr_in_range (sb := sb) s hv hr hnum hfits
  obtain ⟨hholds, hout, rfl⟩ := writeEffect_free hmagnitude hlegal hfits hfree
  rw [List.append_nil] at hends
  exact ⟨t, mid, sign, ht, hholds, hout, hsign, hends⟩

end

/-- Settles O37: zero resolution is the illegal command, and the range check separates the other two clauses. -/
theorem setbnrFollowsItsStatements : Obligations.SetbnrFollowsItsStatements := by
  intro s v r f l sb hv hr
  dsimp only
  by_cases hnum : r.num = 0
  · have hillegal : illegalOperands (.setbnr v r f l sb) := .inr (.inr hnum)
    obtain ⟨t, ht, hraw, hends⟩ := illegalCommand_spec s
    rw [exec_illegalOperands hillegal]
    exact ⟨t, _, ht, hends, fun _ => ⟨hraw, rfl⟩, fun h => absurd hnum h, fun h => absurd hnum h⟩
  by_cases hfits : (bnrEncode v r).natAbs < 2 ^ (l + 1 - f)
  · obtain ⟨t, mid, magnitude, sign, ht, hmagnitude, hsign, hends⟩ :=
      exec_setbnr_in_range (sb := sb) s hv hr hnum hfits
    exact ⟨t, _, ht, hends, fun h => absurd h hnum, fun _ h => absurd hfits (not_lt.2 h),
      fun _ _ => ⟨mid, magnitude, sign, hmagnitude, hsign, rfl⟩⟩
  · obtain ⟨t, ht, hraw, hends⟩ := exec_setbnr_too_large (sb := sb) s hv hr hnum (not_lt.1 hfits)
    exact ⟨t, _, ht, hends, fun h => absurd h hnum, fun _ _ => ⟨hraw, rfl⟩, fun _ h => absurd h hfits⟩

/-- Settles O38: the sign bit, outside the range, is still free after the magnitude write, which the sign write then keeps. -/
theorem setbnrStoresSignAndMagnitude : Obligations.SetbnrStoresSignAndMagnitude := by
  intro s v r f l sb hv hr hnum hlegal hlegalSb hsb hfree hfreeSb hfits
  obtain ⟨t, mid, sign, ht, hholds, hout, hsign, hends⟩ :=
    exec_setbnr_free (sb := sb) s hv hr hnum hlegal hfree hfits
  have hmid : labelBit mid sb = false := (hout sb hlegalSb.1 hlegalSb.2.2 hsb).trans hfreeSb
  obtain ⟨hbit, houtSb, rfl⟩ := writeEffect_bit_free hsign hlegalSb hmid
  rw [overlapWarning_outside hsb, List.nil_append] at hends
  refine ⟨t, ht, hends, ?_, hbit, fun n hn hn' hrange hne => ?_⟩
  · exact fieldHolds_of_sameInside (sameInside_of_disjoint houtSb hlegal (by omega)) hholds
  · exact (houtSb n hn hn' (by omega)).trans (hout n hn hn' hrange)

/-! ### A sign bit inside the magnitude range (R144) -/

/-- Adding a power of two whose bit is 0 sets that bit and no other. -/
theorem testBit_add_two_pow {m k : Nat} (h : m.testBit k = false) (j : Nat) :
    (m + 2 ^ k).testBit j = (m.testBit j || decide (j = k)) := by
  obtain ⟨q, hq⟩ : ∃ q, m / 2 ^ k = 2 * q := by
    rw [Nat.testBit_eq_decide_div_mod_eq, decide_eq_false_iff_not] at h
    exact ⟨m / 2 ^ k / 2, by omega⟩
  have hlow : m % 2 ^ k < 2 ^ k := Nat.mod_lt m (Nat.two_pow_pos k)
  have hm : m = 2 ^ k * (2 * q) + m % 2 ^ k := by rw [← hq, Nat.div_add_mod]
  have hsum : m + 2 ^ k = 2 ^ k * (2 * q + 1) + m % 2 ^ k := by linarith
  have hbit : m.testBit j = if j < k then (m % 2 ^ k).testBit j else (2 * q).testBit (j - k) := by
    rw [← Nat.testBit_two_pow_mul_add _ hlow, ← hm]
  rw [hsum, hbit, Nat.testBit_two_pow_mul_add _ hlow]
  by_cases hlt : j < k
  · simp [hlt, hlt.ne]
  rw [if_neg hlt, if_neg hlt]
  obtain ⟨i, rfl⟩ : ∃ i, j = k + i := ⟨j - k, by omega⟩
  rw [Nat.add_sub_cancel_left]
  cases i with
  | zero => simp
  | succ i =>
    have hhalf : (2 * q + 1) / 2 = 2 * q / 2 := by omega
    simp [Nat.testBit_succ, hhalf]

/-- Rewriting one bit of a range that holds `m` makes it hold `m'`, where the two agree at the other bits. -/
theorem fieldHolds_of_bit_written {a b : LabelWord} {f l n m m' : Nat} (hlegal : legalRange f l) (hn : f ≤ n)
    (hholds : fieldHolds a f l m) (hout : sameOutside a b n n) (hbit : labelBit b n = m'.testBit (n - f))
    (hrest : ∀ i, i ≠ n - f → m'.testBit i = m.testBit i) : fieldHolds b f l m' := by
  obtain ⟨hf, -, hl⟩ := hlegal
  intro k hfk hkl
  by_cases hk : k = n
  · rw [hk, hbit]
  · rw [hout k (by omega) (by omega) (by omega), hholds k hfk hkl, hrest (k - f) (by omega)]

/-- Settles O39: the sign write meets the magnitude's own bit. -/
theorem signOverlapWarnsAndGoesOn : Obligations.SignOverlapWarnsAndGoesOn := by
  intro s v r f l sb hv hr hnum hlegal hfsb hsbl hfree hfits
  dsimp only
  obtain ⟨t, mid, sign, ht, hholds, hout, hsign, hends⟩ :=
    exec_setbnr_free (sb := sb) s hv hr hnum hlegal hfree hfits
  have hlegalSb : legalRange sb sb := by
    obtain ⟨hf, -, hl⟩ := hlegal
    omega
  have hmid := hholds sb hfsb hsbl
  have hkeep : sameOutside s.raw t.raw f l := fun n hn hn' hrange =>
    (writeEffect_sameOutside hsign n hn hn' (by omega)).trans (hout n hn hn' hrange)
  rw [overlapWarning_inside ⟨hfsb, hsbl⟩] at hends
  refine ⟨t, _, ht, hends, hkeep, fun hb => ?_, fun hb hpos => ?_, fun hb hneg => ?_⟩
  · obtain ⟨hraw, rfl⟩ := writeEffect_bit_occupied hsign hlegalSb (hmid.trans hb)
    exact ⟨hraw ▸ hholds, rfl⟩
  · obtain ⟨hbit, houtSb, rfl⟩ := writeEffect_bit_free hsign hlegalSb (hmid.trans hb)
    refine ⟨fieldHolds_of_bit_written hlegal hfsb hholds houtSb ?_ fun _ _ => rfl, rfl⟩
    rw [hbit, hb, decide_eq_false (not_lt.2 hpos)]
  · obtain ⟨hbit, houtSb, rfl⟩ := writeEffect_bit_free hsign hlegalSb (hmid.trans hb)
    refine ⟨fieldHolds_of_bit_written hlegal hfsb hholds houtSb ?_ fun i hi => ?_, rfl⟩
    · rw [hbit, testBit_add_two_pow hb, decide_eq_true hneg, decide_eq_true rfl, Bool.or_true]
    · rw [testBit_add_two_pow hb, decide_eq_false hi, Bool.or_false]

/-! ### A reversed range (R150) -/

/-- Settles O40: a reversed range fits 0 alone, its magnitude write is out of bounds, and a sign write of 0 changes nothing. -/
theorem reversedBnrRangeWritesNothing : Obligations.ReversedBnrRangeWritesNothing := by
  intro s v r f l sb hv hr hnum hlt
  have hwarn : overlapWarning f l sb = [] := overlapWarning_outside (by omega)
  have hwidth : 2 ^ (l + 1 - f) = 1 := by rw [Nat.sub_eq_zero_of_le hlt, pow_zero]
  by_cases he : bnrEncode v r = 0
  · obtain ⟨t, mid, magnitude, sign, ht, ⟨hbounds, -⟩, hsign, hends⟩ :=
      exec_setbnr_in_range (f := f) (l := l) (sb := sb) s hv hr hnum (by rw [he, hwidth]; decide)
    obtain ⟨rfl, rfl⟩ := hbounds fun hlegal => absurd hlegal.2.1 (by omega)
    rw [if_neg (by omega)] at hsign
    have hraw := writeEffect_zero_keeps hsign
    rw [hwarn] at hends
    exact ⟨t, _, ht, hraw, hends, fun h => absurd he h, fun _ => ⟨sign, hraw ▸ hsign, rfl⟩⟩
  · obtain ⟨t, ht, hraw, hends⟩ :=
      exec_setbnr_too_large (f := f) (l := l) (sb := sb) s hv hr hnum (by omega)
    rw [hwarn] at hends
    exact ⟨t, _, ht, hraw, hends, fun _ => rfl, fun h => absurd h he⟩

/-! ### `GETBNR` (R143) -/

/-- A read answers less than a label holds, whether or not its range is legal. -/
theorem readEffect_lt {raw : LabelWord} {f l m : Nat} {ds : List Diag} (h : readEffect raw f l m ds) : m < 2 ^ 32 := by
  obtain ⟨hbounds, hread⟩ := h
  by_cases hlegal : legalRange f l
  · have hm := (hread hlegal).1
    obtain ⟨hf, -, hl⟩ := hlegal
    exact hm.trans_le (Nat.pow_le_pow_right (by decide) (by omega))
  · rw [(hbounds hlegal).1]
    decide

theorem abs_signed_mul (p : Prop) [Decidable p] (m : Nat) : |(if p then -1 else 1) * (m : Int)| = m := by
  split <;> simp

/-- A signed field times an operand word fits the 128-bit result port. -/
theorem toInt_rn_product {k c : Int} (hk : |k| < 2 ^ 32) (hc : intEncodable c = true) :
    (BitVec.ofInt 128 (k * c)).toInt = k * c := by
  have hc' : |c| ≤ 2 ^ 63 := by
    simp only [intEncodable, Bool.and_eq_true, decide_eq_true_eq] at hc
    exact abs_le.2 ⟨hc.1, hc.2.le⟩
  have hlt : |k * c| < 2 ^ 100 :=
    calc |k * c| = |k| * |c| := abs_mul k c
      _ ≤ 2 ^ 32 * 2 ^ 63 := mul_le_mul hk.le hc' (abs_nonneg c) (by decide)
      _ < 2 ^ 100 := by decide
  exact toInt_rn (abs_lt.1 hlt).1 (abs_lt.1 hlt).2

theorem exec_getbnr {r : Ratio} (hr : r.den ≠ 0) (f l sb : Nat) (s : State) :
    exec (.getbnr r f l sb) s =
      answerRatio s (getRaw sb sb (getRaw f l (startCommand s)).2).2
        ((if (getRaw sb sb (getRaw f l (startCommand s)).2).1 ≠ 0 then -1 else 1) *
          ((getRaw f l (startCommand s)).1 : Int) * r.num) r.den :=
  if_neg hr

/-- Settles O41: two reads of the same label, and a product that fits the port. -/
theorem getbnrReturnsTheSignedProduct : Obligations.GetbnrReturnsTheSignedProduct := by
  intro s r f l sb hr hencodable
  obtain ⟨hnumFits, hdenFits⟩ := Bool.and_eq_true_iff.1 hencodable
  obtain ⟨ds, hreported, hraw, hmagnitude⟩ := getRaw_spec f l (startCommand s)
  obtain ⟨es, hreported', hraw', hsign⟩ := getRaw_spec sb sb (getRaw f l (startCommand s)).2
  rw [hraw] at hsign
  have hlt := readEffect_lt hmagnitude
  refine ⟨_, _, _, ds, es, exec_getbnr hr f l sb s, hraw'.trans hraw, hmagnitude, hsign, ?_⟩
  refine commandEnds_complete (reported_trans hreported hreported') (toInt_rn_product ?_ hnumFits) (toInt_intField hdenFits)
  rw [abs_signed_mul]
  exact_mod_cast hlt

/-! ### The round trip (R147) -/

/-- Reading a sign bit answers non-zero exactly when the bit is 1. -/
theorem readEffect_bit {raw : LabelWord} {n sg : Nat} {es : List Diag} (h : readEffect raw n n sg es)
    (hn : legalRange n n) : (sg ≠ 0 ↔ labelBit raw n = true) ∧ es = [] := by
  obtain ⟨hlt, hholds, rfl⟩ := h.2 hn
  rw [Nat.add_sub_cancel_left] at hlt
  rw [hholds n le_rfl le_rfl, Nat.sub_self, Nat.testBit_zero, decide_eq_true_eq]
  exact ⟨by omega, rfl⟩

theorem signed_natAbs (e : Int) : (if e < 0 then -1 else 1) * (e.natAbs : Int) = e := by
  split <;> omega

/-- `GETBNR` of a label that holds the magnitude and the sign of `e`. -/
theorem exec_getbnr_of_stored {s : State} {r : Ratio} {f l sb : Nat} {e : Int} (hr : r.den ≠ 0)
    (hencodable : r.encodable = true) (hlegal : legalRange f l) (hlegalSb : legalRange sb sb) (hfits : e.natAbs < 2 ^ (l + 1 - f))
    (hholds : fieldHolds s.raw f l e.natAbs) (hsign : labelBit s.raw sb = decide (e < 0)) :
    ∃ t, exec (.getbnr r f l sb) s = .next t ∧ commandEnds s t (e * r.num) r.den [] := by
  obtain ⟨t, m, sg, ds, es, ht, -, ⟨-, hmagnitude⟩, hread, hends⟩ :=
    getbnrReturnsTheSignedProduct s r f l sb hr hencodable
  obtain ⟨hm, hholds', rfl⟩ := hmagnitude hlegal
  obtain rfl : m = e.natAbs := fieldHolds_unique hm hfits hholds' hholds
  obtain ⟨hsg, rfl⟩ := readEffect_bit hread hlegalSb
  rw [hsign, decide_eq_true_eq] at hsg
  simp only [hsg, signed_natAbs, List.append_nil] at hends
  exact ⟨t, ht, hends⟩

/-- Settles O42: `GETBNR` reads back what `SETBNR` stored, and the encoder loses less than one resolution step. -/
theorem bnrRoundTrip : Obligations.BnrRoundTrip := by
  intro s v r f l sb hv hr hnum hencodable hlegal hlegalSb hsb hfree hfreeSb hfits
  have hr0 := ratioValue_ne_zero hr hnum
  refine ⟨?_, abs_sub_bnrEncode_mul_lt v hr0, ratioValue_eq_bnrEncode_mul_iff v hr0⟩
  obtain ⟨t, ht, hends, hholds, hsign, -⟩ :=
    setbnrStoresSignAndMagnitude s v r f l sb hv hr hnum hlegal hlegalSb hsb hfree hfreeSb hfits
  obtain ⟨u, hu, hends'⟩ := exec_getbnr_of_stored hr hencodable hlegal hlegalSb hfits hholds hsign
  refine ⟨t, u, _, ht, hends, hu, hends', ?_⟩
  rw [ratioValue, Int.cast_mul, mul_div_assoc]

end Sys2Proof.Machine

/-! ## The decimal codec (44_bcd.md)

The two loops of `SETBCD` and `GETBCD` are specified over all groups by `setBcdGroups_spec` and `getBcdGroups_spec`; here they
become statements about the commands. The round trip then is arithmetic: on a free range a group refuses its digit exactly when
the digit has more bits than the group, and a value is the sum of its digits times their powers of ten. -/

namespace Sys2Proof.Machine

/-! ### The groups of a range (R160) -/

/-- Settles O43: the groups are the `bcdGroup f l k` with `k` below the count, and `k` is below it when group `k` starts in the
range. -/
theorem bcdGroupsCountFromTheFirstBit : Obligations.BcdGroupsCountFromTheFirstBit := by
  intro f l k p h
  rw [bcdGroups_eq, ← List.range_eq_range', List.getElem?_map, Option.map_eq_some_iff]
  constructor
  · rintro ⟨j, hj, hgroup⟩
    obtain ⟨hlt, rfl⟩ := List.getElem?_eq_some_iff.1 hj
    rw [List.length_range] at hlt
    rw [List.getElem_range] at hgroup
    obtain ⟨rfl, rfl⟩ := Prod.mk.inj hgroup
    exact ⟨rfl, rfl, by omega⟩
  · rintro ⟨rfl, rfl, hle⟩
    exact ⟨k, List.getElem?_range (by omega), rfl⟩

theorem legalRange_bcdGroup {f l k : Nat} (hlegal : legalRange f l) (hk : k < (l + 1 - f + 3) / 4) :
    legalRange (f + 4 * k) (min (f + 4 * k + 3) l) := by
  omega

theorem bitsFree_mono {raw : LabelWord} {f l p h : Nat} (hfree : bitsFree raw f l) (hp : f ≤ p) (hh : h ≤ l) :
    bitsFree raw p h := fun n hpn hnh => hfree n (hp.trans hpn) (hnh.trans hh)

/-- No group is wider than 4 bits, and the last one ends with the range. -/
theorem bcdGroup_width (f l k : Nat) : min (f + 4 * k + 3) l + 1 - (f + 4 * k) = min 4 (l + 1 - f - 4 * k) := by
  omega

/-! ### `SETBCDD` (R161, R162) -/

/-- A command that is one report. -/
theorem answerNone_report (e : Diag) (s : State) :
    ∃ t, answerNone s (report e (startCommand s)) = .next t ∧ t.raw = s.raw ∧ commandEnds s t 0 1 [e] :=
  ⟨_, rfl, rfl, commandEnds_complete (reported_one _ _) toInt_rn_zero toInt_rd_one⟩

theorem exec_setbcdd (d : Int) (f l : Nat) (s : State) :
    exec (.setbcdd d f l) s = answerNone s (setBcdDigit d f l (startCommand s)) := rfl

/-- Settles O44: a digit above the capacity is reported, any other is one guarded write. -/
theorem setbcddChecksTheCapacityFirst : Obligations.SetbcddChecksTheCapacityFirst := by
  intro s d f l
  rw [exec_setbcdd]
  obtain ⟨hrefused, hwritten⟩ := setBcdDigit_spec d f l (startCommand s)
  by_cases hd : d < 0 ∨ 2 ^ (l + 1 - f) ≤ d
  · rw [hrefused hd]
    obtain ⟨t, ht, hraw, hends⟩ := answerNone_report .digitOutOfRangeError s
    exact ⟨t, _, ht, hends, fun _ => ⟨hraw, rfl⟩, fun h0 hlt => absurd hd (by omega)⟩
  · rw [hwritten hd]
    obtain ⟨ds, hreported, heffect⟩ := setRaw_spec d f l (startCommand s)
    exact ⟨_, ds, rfl, commandEnds_complete hreported toInt_rn_zero toInt_rd_one, fun h => absurd h hd, fun _ _ => heffect⟩

/-! ### The refusals of `SETBCD` and `GETBCD` (R168, R169) -/

theorem exec_setbcd (v radix : Int) (f l : Nat) (s : State) :
    exec (.setbcd v radix f l) s = answerNone s (setBcd v radix f l (startCommand s)) := rfl

theorem exec_getbcd (radix : Int) (f l : Nat) (s : State) :
    exec (.getbcd radix f l) s =
      answerInt s (getBcd radix f l (startCommand s)).2 (getBcd radix f l (startCommand s)).1 := rfl

theorem setBcd_unsupportedRadix {radix : Int} (h : radix ≠ 10) (v : Int) (f l : Nat) (x : InFlight) :
    setBcd v radix f l x = report .unsupportedRadixError x := if_pos h

theorem getBcd_unsupportedRadix {radix : Int} (h : radix ≠ 10) (f l : Nat) (x : InFlight) :
    getBcd radix f l x = (0, report .unsupportedRadixError x) := if_pos h

theorem setBcd_negative {v : Int} (h : v < 0) (f l : Nat) (x : InFlight) :
    setBcd v 10 f l x = report .valueOutOfRangeError x := (if_neg (not_not.2 rfl)).trans (if_pos h)

/-- Settles O45: each refusal is one report, before any group is touched. -/
theorem bcdRefusesRadixThenSign : Obligations.BcdRefusesRadixThenSign := by
  intro s v radix f l
  refine ⟨fun hradix => ?_, fun hradix => ?_, fun hneg => ?_⟩
  · rw [exec_setbcd, setBcd_unsupportedRadix hradix]
    exact answerNone_report _ s
  · rw [exec_getbcd, getBcd_unsupportedRadix hradix]
    exact answerNone_report _ s
  · rw [exec_setbcd, setBcd_negative hneg]
    exact answerNone_report _ s

/-! ### `SETBCD`, group by group (R163) -/

theorem setBcd_decimal (v f l : Nat) (x : InFlight) :
    setBcd v 10 f l x =
      if (setBcdGroups (bcdGroups f l) v x).1 ≠ 0 then report .valueOutOfRangeError (setBcdGroups (bcdGroups f l) v x).2
      else (setBcdGroups (bcdGroups f l) v x).2 :=
  (if_neg (not_not.2 rfl)).trans (if_neg (Int.natCast_nonneg v).not_gt)

/-- After the loop the only thing left to do is to report leftover digits; it keeps `raw`. -/
theorem setBcd_decimal_leftover (v f l : Nat) (x : InFlight) :
    (setBcd v 10 f l x).raw = (setBcdGroups (bcdGroups f l) v x).2.raw ∧
    reported (setBcdGroups (bcdGroups f l) v x).2 (setBcd v 10 f l x)
      (if (setBcdGroups (bcdGroups f l) v x).1 = 0 then [] else [.valueOutOfRangeError]) := by
  rw [setBcd_decimal, ite_not]
  split
  · exact ⟨rfl, reported_nil _⟩
  · exact ⟨rfl, reported_one _ _⟩

/-- Settles O46: the loop's specification over all groups, then the leftover digits. -/
theorem setbcdWritesEveryGroupOnItsOwn : Obligations.SetbcdWritesEveryGroupOnItsOwn := by
  intro s v f l n
  obtain ⟨hrest, dss, hlen, hreported, heffect, hout⟩ := setBcdGroups_spec f l n 0 v (startCommand s) (by omega)
  obtain ⟨hraw, hleftover⟩ := setBcd_decimal_leftover v f l (startCommand s)
  rw [bcdGroups_eq] at hraw hleftover
  rw [hrest] at hleftover
  simp only [Nat.zero_add] at heffect
  rw [← hraw] at hout heffect
  exact ⟨_, dss, exec_setbcd v 10 f l s, hlen, heffect, fun m hm hm' hm'' => hout m hm hm' (by omega),
    commandEnds_complete (reported_trans hreported hleftover) toInt_rn_zero toInt_rd_one⟩

/-! ### `GETBCD` (R164) -/

theorem getBcd_decimal (f l : Nat) (x : InFlight) : getBcd 10 f l x = getBcdGroups (bcdGroups f l) 0 0 x :=
  if_neg (not_not.2 rfl)

/-- A group reads less than 16, whether or not it is legal. -/
theorem readEffect_bcdGroup_lt {raw : LabelWord} {f l k g : Nat} {ds : List Diag}
    (h : readEffect raw (f + 4 * k) (min (f + 4 * k + 3) l) g ds) : g < 16 := by
  obtain ⟨hbounds, hread⟩ := h
  by_cases hlegal : legalRange (f + 4 * k) (min (f + 4 * k + 3) l)
  · have hg := (hread hlegal).1
    rw [bcdGroup_width] at hg
    exact hg.trans_le (Nat.pow_le_pow_right (by decide) (Nat.min_le_left 4 _))
  · rw [(hbounds hlegal).1]
    decide

/-- The sum of `n` groups below 16 has no more than one digit more than `n`. -/
theorem sum_digits_lt (g : Nat → Nat) (n : Nat) (hg : ∀ k, k < n → g k < 16) :
    ((List.range n).map fun k => g k * 10 ^ k).sum < 2 * 10 ^ n := by
  induction n with
  | zero => simp
  | succ n ih =>
    have hbelow := ih fun k hk => hg k (by omega)
    have htop : g n * 10 ^ n ≤ 15 * 10 ^ n := Nat.mul_le_mul_right _ (Nat.le_of_lt_succ (hg n n.lt_succ_self))
    rw [List.range_succ, List.map_append, List.sum_append, List.map_singleton, List.sum_singleton, pow_succ]
    omega

/-- Settles O47: the loop's specification over all groups; at most 16 groups, so the sum fits the result port. -/
theorem getbcdSumsTheGroups : Obligations.GetbcdSumsTheGroups := by
  intro s f l hl n
  obtain ⟨gs, dss, hlenG, hlenD, hsum, hraw, hreported, hread⟩ := getBcdGroups_spec f l n 0 0 (startCommand s)
  simp only [Nat.zero_add] at hsum hread
  have hlt : ((List.range n).map fun k => gs.getD k 0 * 10 ^ k).sum < 2 ^ 100 :=
    calc ((List.range n).map fun k => gs.getD k 0 * 10 ^ k).sum
        < 2 * 10 ^ n := sum_digits_lt _ n fun k hk => readEffect_bcdGroup_lt (hread k hk)
      _ ≤ 2 * 10 ^ 16 := Nat.mul_le_mul_left 2 (Nat.pow_le_pow_right (by decide) (by omega))
      _ < 2 ^ 100 := by decide
  have hexec := exec_getbcd 10 f l s
  rw [getBcd_decimal, bcdGroups_eq, hsum] at hexec
  exact ⟨_, gs, dss, hexec, hraw, hlenG, hlenD, hread,
    commandEnds_complete hreported (toInt_rn (by omega) (by omega)) toInt_rd_one⟩

/-! ### Which values fit (R170) -/

/-- On a free legal range a digit write is silent exactly when the digit fits, and then the range holds it. -/
theorem digitEffect_free {raw raw' : LabelWord} {d p h : Nat} {ds : List Diag} (he : digitEffect raw d p h raw' ds)
    (hlegal : legalRange p h) (hfree : bitsFree raw p h) :
    (ds = [] ↔ d < 2 ^ (h + 1 - p)) ∧ (ds = [] → fieldHolds raw' p h d) := by
  obtain ⟨hlarge, -, -, hwritten⟩ := he
  by_cases hd : d < 2 ^ (h + 1 - p)
  · obtain ⟨hholds, rfl⟩ := hwritten hd hlegal hfree
    exact ⟨⟨fun _ => hd, fun _ => rfl⟩, fun _ => hholds⟩
  · obtain ⟨-, rfl⟩ := hlarge (not_lt.1 hd)
    exact ⟨⟨fun h => absurd h (by simp), fun h => absurd h hd⟩, fun h => absurd h (by simp)⟩

theorem flatten_eq_nil_iff_getD {n : Nat} {dss : List (List Diag)} (hlen : dss.length = n) :
    dss.flatten = [] ↔ ∀ k, k < n → dss.getD k [] = [] := by
  subst hlen
  rw [List.flatten_eq_nil_iff, List.forall_mem_iff_getElem]
  refine forall₂_congr fun k hk => ?_
  rw [List.getD_eq_getElem _ _ hk]

/-- The decimal digits of `v` fit `w` bits cut into groups of 4: each digit its group, and none is left over. -/
def digitsFit (w v : Nat) : Prop :=
  (∀ k, k < (w + 3) / 4 → v / 10 ^ k % 10 < 2 ^ min 4 (w - 4 * k)) ∧ v / 10 ^ ((w + 3) / 4) = 0

/-- A group of 4 bits takes every digit. -/
theorem digit_lt_full_group {w k : Nat} (v : Nat) (hk : k < w / 4) : v / 10 ^ k % 10 < 2 ^ min 4 (w - 4 * k) := by
  rw [Nat.min_eq_left (by omega)]
  omega

theorem digitsFit_full {w : Nat} (hw : w % 4 = 0) (v : Nat) : digitsFit w v ↔ v < 10 ^ (w / 4) := by
  rw [digitsFit, show (w + 3) / 4 = w / 4 by omega, Nat.div_eq_zero_iff_lt (by positivity)]
  exact and_iff_right fun k hk => digit_lt_full_group v hk

theorem digitsFit_partial {w : Nat} (hw : w % 4 ≠ 0) (v : Nat) :
    digitsFit w v ↔ v / 10 ^ (w / 4) ≤ min 9 (2 ^ (w % 4) - 1) := by
  have hlast : (∀ k, k < w / 4 + 1 → v / 10 ^ k % 10 < 2 ^ min 4 (w - 4 * k)) ↔ v / 10 ^ (w / 4) % 10 < 2 ^ (w % 4) := by
    rw [Nat.forall_lt_succ_right, and_iff_right fun k hk => digit_lt_full_group v hk,
      show min 4 (w - 4 * (w / 4)) = w % 4 by omega]
  rw [digitsFit, show (w + 3) / 4 = w / 4 + 1 by omega, hlast, pow_succ, ← Nat.div_div_eq_div_mul]
  have hpos := Nat.two_pow_pos (w % 4)
  generalize v / 10 ^ (w / 4) = q, 2 ^ (w % 4) = c at *
  omega

theorem digitsFit_iff_le_bcdLargest (f l v : Nat) : digitsFit (l + 1 - f) v ↔ v ≤ bcdLargest f l := by
  have hpos : 0 < 10 ^ ((l + 1 - f) / 4) := by positivity
  by_cases hw : (l + 1 - f) % 4 = 0
  · rw [digitsFit_full hw, show bcdLargest f l = _ from if_pos hw]
    omega
  · rw [digitsFit_partial hw, show bcdLargest f l = _ from if_neg hw, ← Nat.lt_add_one_iff, Nat.div_lt_iff_lt_mul hpos,
      Nat.add_one_mul]
    omega

/-! ### The round trip (R170) -/

/-- A value is the sum of its digits times their powers of ten. -/
theorem sum_digits_eq_mod (v n : Nat) : ((List.range n).map fun k => v / 10 ^ k % 10 * 10 ^ k).sum = v % 10 ^ n := by
  induction n with
  | zero => simp [Nat.mod_one]
  | succ n ih =>
    rw [List.range_succ, List.map_append, List.sum_append, ih, List.map_singleton, List.sum_singleton, Nat.mod_pow_succ,
      Nat.mul_comm (10 ^ n)]

/-- `SETBCD` on a free legal range is silent exactly when the digits fit, and then every group holds its digit. -/
theorem exec_setbcd_free {s : State} {f l : Nat} (hlegal : legalRange f l) (hfree : bitsFree s.raw f l) (v : Nat) :
    ∃ t ds, exec (.setbcd v 10 f l) s = .next t ∧ commandEnds s t 0 1 ds ∧ (ds = [] ↔ digitsFit (l + 1 - f) v) ∧
      (ds = [] → ∀ k, k < (l + 1 - f + 3) / 4 →
        fieldHolds t.raw (f + 4 * k) (min (f + 4 * k + 3) l) (v / 10 ^ k % 10)) := by
  obtain ⟨t, dss, ht, hlen, heffect, -, hends⟩ := setbcdWritesEveryGroupOnItsOwn s v f l
  have hgroup := fun k hk => digitEffect_free (heffect k hk) (legalRange_bcdGroup hlegal hk)
    (bitsFree_mono hfree (by omega) (by omega))
  simp only [bcdGroup_width] at hgroup
  refine ⟨t, _, ht, hends, ?_, fun hsilent k hk => ?_⟩
  · rw [List.append_eq_nil_iff, flatten_eq_nil_iff_getD hlen, digitsFit]
    exact and_congr (forall₂_congr fun k hk => (hgroup k hk).1) (by simp)
  · have hflat := (List.append_eq_nil_iff.1 hsilent).1
    exact (hgroup k hk).2 ((flatten_eq_nil_iff_getD hlen).1 hflat k hk)

/-- `GETBCD` of a legal range whose groups hold the digits of `v`, with no digit left over. -/
theorem exec_getbcd_of_digits {s : State} {f l v : Nat} (hlegal : legalRange f l) (hfits : digitsFit (l + 1 - f) v)
    (hholds : ∀ k, k < (l + 1 - f + 3) / 4 → fieldHolds s.raw (f + 4 * k) (min (f + 4 * k + 3) l) (v / 10 ^ k % 10)) :
    ∃ u, exec (.getbcd 10 f l) s = .next u ∧ u.raw = s.raw ∧ commandEnds s u v 1 [] := by
  obtain ⟨u, gs, dss, hu, hraw, -, hlen, hread, hends⟩ := getbcdSumsTheGroups s f l (by omega)
  obtain ⟨hdigits, hnoneLeft⟩ := hfits
  have hgroup : ∀ k, k < (l + 1 - f + 3) / 4 → gs.getD k 0 = v / 10 ^ k % 10 ∧ dss.getD k [] = [] := by
    intro k hk
    obtain ⟨hlt, hholds', hds⟩ := (hread k hk).2 (legalRange_bcdGroup hlegal hk)
    exact ⟨fieldHolds_unique hlt (by rw [bcdGroup_width]; exact hdigits k hk) hholds' (hholds k hk), hds⟩
  have hsilent : dss.flatten = [] := (flatten_eq_nil_iff_getD hlen).2 fun k hk => (hgroup k hk).2
  have hsum : ((List.range ((l + 1 - f + 3) / 4)).map fun k => gs.getD k 0 * 10 ^ k).sum = v := by
    have hmap := List.map_congr_left fun k hk => congrArg (· * 10 ^ k) (hgroup k (List.mem_range.1 hk)).1
    rw [hmap, sum_digits_eq_mod, Nat.mod_eq_of_lt ((Nat.div_eq_zero_iff_lt (by positivity)).1 hnoneLeft)]
  rw [hsum, hsilent] at hends
  exact ⟨u, hu, hraw, hends⟩

/-- Settles O48: a silent `SETBCD` leaves the digits in the groups, and `GETBCD` sums them up again. -/
theorem bcdRoundTrip : Obligations.BcdRoundTrip := by
  intro s v f l hlegal hfree
  obtain ⟨t, ds, ht, hends, hfits, hholds⟩ := exec_setbcd_free hlegal hfree v
  exact ⟨t, ds, ht, hends, hfits.trans (digitsFit_iff_le_bcdLargest f l v),
    fun hsilent => exec_getbcd_of_digits hlegal (hfits.1 hsilent) (hholds hsilent)⟩

end Sys2Proof.Machine

/-! ## Housekeeping (46_system.md)

Each of the four commands is one answer, so a single lemma gives their responses (R190 to R193). `GETWORD` and `GETRAW 1, 32`
agree because a read of the whole label is the label word itself (R191). -/

namespace Sys2Proof.Machine

/-! ### The commands and their responses -/

theorem exec_clr (s : State) : exec .clr s = .next (completeCommand s { startCommand s with raw := 0#32 } 0 1) := rfl

theorem exec_clrdsr (s : State) : exec .clrdsr s = .next (completeCommand s { startCommand s with dsr := 0#8 } 0 1) := rfl

theorem exec_getword (s : State) : exec .getword s = answerInt s (startCommand s) s.raw.toNat := rfl

/-- `commandEnds_complete` without its flags, for an `x` that need not be a chain of reports (`CLRDSR`). -/
theorem responds_completeCommand (s : State) (x : InFlight) {rn rd : Int} (hn : (BitVec.ofInt 128 rn).toInt = rn)
    (hd : (BitVec.ofInt 64 rd).toInt = rd) : responds s (completeCommand s x rn rd) rn rd x.diags :=
  ⟨completeCommand_inputs s x rn rd, _, completeCommand_rsp s x rn rd, completeCommand_responses s x rn rd, hn, hd, rfl⟩

/-- A register of at most 64 bits, answered as the result, is shown unchanged on the port. -/
theorem responds_register (s : State) {w : Nat} (hw : w ≤ 64) (v : BitVec w) :
    responds s (completeCommand s (startCommand s) v.toNat 1) v.toNat 1 [] := by
  have hlt : v.toNat < 2 ^ 64 := v.isLt.trans_le (Nat.pow_le_pow_right (by decide) hw)
  exact responds_completeCommand s (startCommand s) (toInt_rn (by omega) (by omega)) toInt_rd_one

/-- Settles O49: each answer replaces one register of the command in progress and reports nothing. -/
theorem clearsAreSeparate : Obligations.ClearsAreSeparate := fun s =>
  ⟨⟨_, exec_clr s, rfl, rfl, responds_completeCommand s _ toInt_rn_zero toInt_rd_one⟩,
    ⟨_, exec_clrdsr s, rfl, rfl, responds_completeCommand s _ toInt_rn_zero toInt_rd_one⟩⟩

/-! ### The whole label as a field -/

theorem legalRange_wholeLabel : legalRange 1 32 := by decide

theorem fieldHolds_wholeLabel (raw : LabelWord) : fieldHolds raw 1 32 raw.toNat := fun _ _ _ => rfl

theorem fieldOf_wholeLabel (raw : LabelWord) : fieldOf raw 1 32 = raw.toNat :=
  fieldHolds_unique (fieldOf_lt raw legalRange_wholeLabel) raw.isLt (fieldHolds_fieldOf raw legalRange_wholeLabel)
    (fieldHolds_wholeLabel raw)

theorem exec_getraw_wholeLabel (s : State) : exec (.getraw 1 32) s = exec .getword s := by
  rw [exec_getraw, exec_getword, readField, getRaw_success legalRange_wholeLabel, fieldOf_wholeLabel, startCommand_raw]

/-- Settles O50: both commands answer a register and start from, and end with, the registers as they are. -/
theorem wholeRegisterReads : Obligations.WholeRegisterReads := fun s =>
  ⟨⟨_, exec_getword s, rfl, rfl, responds_register s (by decide) s.raw, exec_getraw_wholeLabel s⟩,
    ⟨_, exec_getdsr s, rfl, rfl, responds_register s (by decide) s.dsr⟩⟩

end Sys2Proof.Machine

/-! ## Exceptions (60_exceptions.md)

The specifications of the commands already say what each of them reports; here that is compared with the table of R206, and the
bounds of R207 follow by counting the entries of the table. -/

namespace Sys2Proof.Machine

/-! ### What one write and one read can report -/

theorem atMostOne_nil (es : List Diag) : atMostOne es [] := .inl rfl

theorem atMostOne_singleton {e : Diag} {es : List Diag} (he : e ∈ es) : atMostOne es [e] := .inr ⟨e, he, rfl⟩

/-- A guarded write reports at most one diagnostic, and a guard that cannot fail is not among them. -/
theorem writeEffect_atMostOne {raw raw' : LabelWord} {v : Int} {f l : Nat} {ds es : List Diag}
    (h : writeEffect raw v f l raw' ds) (hbounds : ¬ legalRange f l → .rangeError ∈ es)
    (hwidth : ¬ (0 ≤ v ∧ v < 2 ^ (l + 1 - f)) → .valueTooWideError ∈ es) (hocc : .rangeOccupiedError ∈ es) :
    atMostOne es ds := by
  obtain ⟨hout, htooWide, hoccupied, hwritten⟩ := h
  by_cases hlegal : legalRange f l
  swap
  · obtain ⟨-, rfl⟩ := hout hlegal
    exact atMostOne_singleton (hbounds hlegal)
  by_cases hv : 0 ≤ v ∧ v < 2 ^ (l + 1 - f)
  swap
  · obtain ⟨-, rfl⟩ := htooWide hlegal hv
    exact atMostOne_singleton (hwidth hv)
  by_cases hfree : bitsFree raw f l
  · obtain ⟨-, -, rfl⟩ := hwritten hlegal hv.1 hv.2 hfree
    exact atMostOne_nil es
  · obtain ⟨-, rfl⟩ := hoccupied hlegal hv.1 hv.2 hfree
    exact atMostOne_singleton hocc

/-- The diagnostics of a read of `[f, l]` (40_raw_accessor.md R107). -/
def readDiags (f l : Nat) : List Diag := if legalRange f l then [] else [.rangeError]

theorem readDiags_of_legal {f l : Nat} (h : legalRange f l) : readDiags f l = [] := if_pos h

theorem readDiags_of_not_legal {f l : Nat} (h : ¬ legalRange f l) : readDiags f l = [.rangeError] := if_neg h

theorem readEffect_diags {raw : LabelWord} {f l v : Nat} {ds : List Diag} (h : readEffect raw f l v ds) :
    ds = readDiags f l := by
  obtain ⟨hout, hread⟩ := h
  by_cases hlegal : legalRange f l
  · obtain ⟨-, -, rfl⟩ := hread hlegal
    exact (readDiags_of_legal hlegal).symm
  · obtain ⟨-, rfl⟩ := hout hlegal
    exact (readDiags_of_not_legal hlegal).symm

theorem readDiags_atMostOne (f l : Nat) : atMostOne [.rangeError] (readDiags f l) := by
  by_cases hlegal : legalRange f l
  · rw [readDiags_of_legal hlegal]
    exact atMostOne_nil _
  · rw [readDiags_of_not_legal hlegal]
    exact atMostOne_singleton (by decide)

/-- A digit group has no width to exceed: its capacity is checked first (44_bcd.md R161). -/
theorem digitEffect_atMostOne {raw raw' : LabelWord} {d p h : Nat} {ds : List Diag} (he : digitEffect raw d p h raw' ds) :
    atMostOne [.digitOutOfRangeError, .rangeError, .rangeOccupiedError] ds := by
  obtain ⟨hlarge, hout, hoccupied, hwritten⟩ := he
  rcases le_or_gt (2 ^ (h + 1 - p)) d with hd | hd
  · obtain ⟨-, rfl⟩ := hlarge hd
    exact atMostOne_singleton (by decide)
  by_cases hlegal : legalRange p h
  swap
  · obtain ⟨-, rfl⟩ := hout hd hlegal
    exact atMostOne_singleton (by decide)
  by_cases hfree : bitsFree raw p h
  · obtain ⟨-, rfl⟩ := hwritten hd hlegal hfree
    exact atMostOne_nil _
  · obtain ⟨-, rfl⟩ := hoccupied hd hlegal hfree
    exact atMostOne_singleton (by decide)

/-! ### What one command can report -/

/-- The outcome is a next state whose response carries diagnostics that `allowed` admits. -/
def answersAmong (allowed : List Diag → Prop) (o : Host.Outcome State Fault Refusal) : Prop :=
  ∃ t r, o = .next t ∧ t.rsp = some r ∧ allowed r.diags

section
variable {allowed : List Diag → Prop}

theorem answersAmong_mono {allowed' : List Diag → Prop} {o : Host.Outcome State Fault Refusal} (h : answersAmong allowed o)
    (himp : ∀ ds, allowed ds → allowed' ds) : answersAmong allowed' o := by
  obtain ⟨t, r, ho, hr, hds⟩ := h
  exact ⟨t, r, ho, hr, himp _ hds⟩

theorem answersAmong_of_responds {s t : State} {o : Host.Outcome State Fault Refusal} {rn rd : Int} {ds : List Diag}
    (ho : o = .next t) (h : responds s t rn rd ds) (hds : allowed ds) : answersAmong allowed o := by
  obtain ⟨-, r, hr, -, -, -, rfl⟩ := h
  exact ⟨t, r, ho, hr, hds⟩

/-- Whatever pair is answered, so also one that does not fit the result port. -/
theorem answerRatio_among {s : State} {x : InFlight} {ds : List Diag} (h : reported (startCommand s) x ds) (hds : allowed ds)
    (rn rd : Int) : answersAmong allowed (answerRatio s x rn rd) := by
  obtain ⟨hdiags, -⟩ := h
  obtain rfl : x.diags = ds := hdiags
  exact ⟨_, _, rfl, completeCommand_rsp s x rn rd, hds⟩

theorem illegalCommand_among (h : allowed [.illegalCommandError]) (s : State) : answersAmong allowed (illegalCommand s) :=
  answerRatio_among (reported_one _ _) h 0 1

end

theorem writeField_among {v : Int} {f l : Nat} {es : List Diag} (hbounds : ¬ legalRange f l → .rangeError ∈ es)
    (hwidth : ¬ (0 ≤ v ∧ v < 2 ^ (l + 1 - f)) → .valueTooWideError ∈ es) (hocc : .rangeOccupiedError ∈ es) (s : State) :
    answersAmong (atMostOne es) (writeField v f l s) := by
  obtain ⟨t, ds, ht, heffect, -, hresponse⟩ := writeField_spec v f l s
  exact answersAmong_of_responds ht hresponse (writeEffect_atMostOne heffect hbounds hwidth hocc)

/-- The three writes with operands of their own for value and range. -/
theorem writeField_among_guards (v : Int) (f l : Nat) (s : State) :
    answersAmong (atMostOne [.rangeError, .valueTooWideError, .rangeOccupiedError]) (writeField v f l s) :=
  writeField_among (fun _ => by decide) (fun _ => by decide) (by decide) s

/-- A write to a fixed range. -/
theorem writeField_among_of_legal {f l : Nat} (hlegal : legalRange f l) (v : Int) (s : State) :
    answersAmong (atMostOne [.valueTooWideError, .rangeOccupiedError]) (writeField v f l s) :=
  writeField_among (absurd hlegal) (fun _ => by decide) (by decide) s

theorem readField_among (f l : Nat) (s : State) : answersAmong (· = readDiags f l) (readField f l s) := by
  obtain ⟨t, v, ds, ht, -, heffect, -, hresponse⟩ := readField_spec f l s
  exact answersAmong_of_responds ht hresponse (readEffect_diags heffect)

theorem readField_among_rangeError (f l : Nat) (s : State) : answersAmong (atMostOne [.rangeError]) (readField f l s) :=
  answersAmong_mono (readField_among f l s) fun _ hds => hds ▸ readDiags_atMostOne f l

/-- A read of a fixed range. -/
theorem readField_among_of_legal {f l : Nat} (hlegal : legalRange f l) (s : State) :
    answersAmong (· = []) (readField f l s) :=
  readDiags_of_legal hlegal ▸ readField_among f l s

/-- The parity bit fits its range, which is legal. -/
theorem exec_setpar_among (p : Int) (s : State) : answersAmong (diagsAllowed (.setpar p)) (exec (.setpar p) s) := by
  by_cases hill : illegalOperands (.setpar p)
  · rw [exec_illegalOperands hill]
    exact illegalCommand_among (atMostOne_singleton (by decide)) s
  · obtain ⟨d, rfl⟩ : ∃ d, p = parityBit d := by
      obtain rfl | rfl : p = 0 ∨ p = 1 := by simpa [illegalOperands, or_iff_not_imp_left] using hill
      · exact ⟨.even, rfl⟩
      · exact ⟨.odd, rfl⟩
    have hbit := parityChoice_lt_two d (popCount s.raw.toNat)
    rw [exec_setpar]
    exact writeField_among (absurd (by decide)) (fun hwidth => absurd (by norm_num; omega) hwidth) (by decide) s

theorem overlapWarning_atMostOne (f l sb : Nat) : atMostOne [.signBitOverlapError] (overlapWarning f l sb) := by
  by_cases h : f ≤ sb ∧ sb ≤ l
  · rw [overlapWarning_inside h]
    exact atMostOne_singleton (by decide)
  · rw [overlapWarning_outside h]
    exact atMostOne_nil _

theorem sign_fits_one_bit (e : Int) (sb : Nat) :
    0 ≤ (if e < 0 then 1 else 0 : Int) ∧ (if e < 0 then 1 else 0 : Int) < 2 ^ (sb + 1 - sb) := by
  rw [Nat.add_sub_cancel_left]
  split <;> decide

/-- Neither write of `SETBNR` can find its value too wide: the range check comes first, and the sign is one bit. -/
theorem exec_setbnr_among (v r : Ratio) (f l sb : Nat) (s : State) :
    answersAmong (diagsAllowed (.setbnr v r f l sb)) (exec (.setbnr v r f l sb) s) := by
  by_cases hill : illegalOperands (.setbnr v r f l sb)
  · rw [exec_illegalOperands hill]
    exact illegalCommand_among (.inl rfl) s
  obtain ⟨hv, hr, hnum⟩ : v.den ≠ 0 ∧ r.den ≠ 0 ∧ r.num ≠ 0 := by simpa [illegalOperands] using hill
  have hwarning := overlapWarning_atMostOne f l sb
  rcases le_or_gt (2 ^ (l + 1 - f)) (bnrEncode v r).natAbs with hlarge | hfits
  · obtain ⟨t, ht, -, -, hresponse⟩ := exec_setbnr_too_large (sb := sb) s hv hr hnum hlarge
    exact answersAmong_of_responds ht hresponse (.inr ⟨_, hwarning, .inl rfl⟩)
  · obtain ⟨t, mid, magnitude, sign, ht, hmagnitude, hsign, -, hresponse⟩ :=
      exec_setbnr_in_range (sb := sb) s hv hr hnum hfits
    have hfits' : 0 ≤ ((bnrEncode v r).natAbs : Int) ∧ ((bnrEncode v r).natAbs : Int) < 2 ^ (l + 1 - f) :=
      ⟨Int.natCast_nonneg _, mod_cast hfits⟩
    have hmagnitude' := writeEffect_atMostOne (es := [.rangeError, .rangeOccupiedError]) hmagnitude (fun _ => by decide)
      (absurd hfits') (by decide)
    have hsign' := writeEffect_atMostOne (es := [.rangeError, .rangeOccupiedError]) hsign (fun _ => by decide)
      (absurd (sign_fits_one_bit _ sb)) (by decide)
    exact answersAmong_of_responds ht hresponse
      (.inr ⟨_, hwarning, .inr ⟨magnitude, sign, hmagnitude', hsign', rfl⟩⟩)

theorem exec_getbnr_among (r : Ratio) (f l sb : Nat) (s : State) :
    answersAmong (diagsAllowed (.getbnr r f l sb)) (exec (.getbnr r f l sb) s) := by
  by_cases hr : r.den = 0
  · rw [exec_illegalOperands (i := .getbnr r f l sb) hr]
    exact illegalCommand_among (.inl rfl) s
  obtain ⟨ds, hreported, -, hmagnitude⟩ := getRaw_spec f l (startCommand s)
  obtain ⟨es, hreported', -, hsign⟩ := getRaw_spec sb sb (getRaw f l (startCommand s)).2
  rw [exec_getbnr hr]
  refine answerRatio_among (reported_trans hreported hreported') (.inr ⟨ds, es, ?_, ?_, rfl⟩) _ _
  · exact readEffect_diags hmagnitude ▸ readDiags_atMostOne f l
  · exact readEffect_diags hsign ▸ readDiags_atMostOne sb sb

theorem exec_setbcdd_among (d : Int) (f l : Nat) (s : State) :
    answersAmong (diagsAllowed (.setbcdd d f l)) (exec (.setbcdd d f l) s) := by
  obtain ⟨t, ds, ht, ⟨-, hresponse⟩, hrefused, hwritten⟩ := setbcddChecksTheCapacityFirst s d f l
  refine answersAmong_of_responds ht hresponse ?_
  by_cases hd : 0 ≤ d ∧ d < 2 ^ (l + 1 - f)
  · exact writeEffect_atMostOne (hwritten hd.1 hd.2) (fun _ => by decide) (absurd hd) (by decide)
  · obtain ⟨-, rfl⟩ := hrefused (by omega)
    exact atMostOne_singleton (by decide)

theorem exec_setbcd_among (v radix : Int) (f l : Nat) (s : State) :
    answersAmong (diagsAllowed (.setbcd v radix f l)) (exec (.setbcd v radix f l) s) := by
  obtain ⟨hradix, -, hneg⟩ := bcdRefusesRadixThenSign s v radix f l
  by_cases hr : radix = 10
  swap
  · obtain ⟨t, ht, -, -, hresponse⟩ := hradix hr
    exact answersAmong_of_responds ht hresponse (.inl rfl)
  subst hr
  rcases lt_or_ge v 0 with hv | hv
  · obtain ⟨t, ht, -, -, hresponse⟩ := hneg hv
    exact answersAmong_of_responds ht hresponse (.inr (.inl rfl))
  lift v to Nat using hv
  obtain ⟨t, dss, ht, hlen, heffect, -, -, hresponse⟩ := setbcdWritesEveryGroupOnItsOwn s v f l
  refine answersAmong_of_responds ht hresponse (.inr (.inr ⟨dss, _, hlen, fun ds hds => ?_, ?_, rfl⟩))
  · obtain ⟨k, hk, rfl⟩ := List.getElem_of_mem hds
    rw [← List.getD_eq_getElem dss [] hk]
    exact digitEffect_atMostOne (heffect k (hlen ▸ hk))
  · split
    · exact atMostOne_nil _
    · exact atMostOne_singleton (by decide)

theorem exec_getbcd_among (radix : Int) (f l : Nat) (s : State) :
    answersAmong (diagsAllowed (.getbcd radix f l)) (exec (.getbcd radix f l) s) := by
  rw [exec_getbcd]
  by_cases hr : radix = 10
  swap
  · rw [getBcd_unsupportedRadix hr]
    exact answerRatio_among (reported_one _ _) (.inl rfl) _ _
  subst hr
  obtain ⟨gs, dss, -, hlen, -, -, hreported, hread⟩ := getBcdGroups_spec f l ((l + 1 - f + 3) / 4) 0 0 (startCommand s)
  simp only [Nat.zero_add] at hread
  rw [getBcd_decimal, bcdGroups_eq]
  exact answerRatio_among hreported (.inr ⟨dss, hlen, fun k hk => readEffect_diags (hread k (hlen ▸ hk)), rfl⟩) _ _

/-- Every command reports what the table allows it (R206). -/
theorem exec_among (i : Instr) (s : State) : answersAmong (diagsAllowed i) (exec i s) := by
  cases i with
  | setraw v f l => exact writeField_among_guards v f l s
  | setdisc v f l => exact writeField_among_guards v f l s
  | setdbit v b => exact writeField_among_guards v b b s
  | setid v => exact writeField_among_of_legal (by decide) v s
  | setsdi v => exact writeField_among_of_legal (by decide) v s
  | setssm v => exact writeField_among_of_legal (by decide) v s
  | setpar p => exact exec_setpar_among p s
  | setbnr v r f l sb => exact exec_setbnr_among v r f l sb s
  | setbcdd d f l => exact exec_setbcdd_among d f l s
  | setbcd v radix f l => exact exec_setbcd_among v radix f l s
  | getraw f l => exact readField_among_rangeError f l s
  | getdisc f l => exact readField_among_rangeError f l s
  | getdbit b => exact readField_among_rangeError b b s
  | getid => exact readField_among_of_legal (f := 1) (l := 8) (by decide) s
  | getsdi => exact readField_among_of_legal (f := 9) (l := 10) (by decide) s
  | getssm => exact readField_among_of_legal (f := 30) (l := 31) (by decide) s
  | getpar => exact readField_among_of_legal (f := 32) (l := 32) (by decide) s
  | getbnr r f l sb => exact exec_getbnr_among r f l sb s
  | getbcd radix f l => exact exec_getbcd_among radix f l s
  | clr | getword | getdsr | clrdsr => exact ⟨_, _, rfl, rfl, rfl⟩

/-- Settles O22: each command's own comparison with the table. -/
theorem diagnosticsFollowTheTable : Obligations.DiagnosticsFollowTheTable := exec_among

/-! ### How many diagnostics the table allows (R207) -/

theorem length_le_one_of_atMostOne {es ds : List Diag} (h : atMostOne es ds) : ds.length ≤ 1 := by
  obtain rfl | ⟨e, -, rfl⟩ := h
  · exact Nat.zero_le 1
  · exact le_rfl

theorem length_flatten_le {groups : List (List Diag)} (h : ∀ g ∈ groups, g.length ≤ 1) :
    groups.flatten.length ≤ groups.length := by
  rw [List.length_flatten]
  simpa using List.sum_le_card_nsmul (groups.map List.length) 1 (by simpa using h)

/-- One diagnostic at most to each group, and one for the leftover digits. -/
theorem length_setbcd_le {v radix : Int} {f l : Nat} {ds : List Diag} (h : diagsAllowed (.setbcd v radix f l) ds) :
    ds.length ≤ (l + 1 - f + 3) / 4 + 1 := by
  obtain rfl | rfl | ⟨groups, leftover, hlen, hgroups, hleftover, rfl⟩ := h
  · exact Nat.le_add_left 1 _
  · exact Nat.le_add_left 1 _
  · rw [List.length_append, ← hlen]
    exact Nat.add_le_add (length_flatten_le fun g hg => length_le_one_of_atMostOne (hgroups g hg))
      (length_le_one_of_atMostOne hleftover)

/-- Group `k` of `[f, l]` is not a legal range. -/
abbrev illegalGroup (f l k : Nat) : Prop := ¬ legalRange (f + 4 * k) (min (f + 4 * k + 3) l)

/-- The first group is illegal when it starts at bit number 0; any other is illegal only by reaching above label bit 32. -/
theorem card_illegalGroup_le {f l : Nat} (hl : l < 64) :
    ((Finset.range ((l + 1 - f + 3) / 4)).filter (illegalGroup f l)).card ≤ 9 := by
  rcases Nat.eq_zero_or_pos f with rfl | hf
  · have hsub : (Finset.range ((l + 1 - 0 + 3) / 4)).filter (illegalGroup 0 l) ⊆ insert 0 (Finset.Ico 8 16) := by
      intro k hk
      simp only [Finset.mem_filter, Finset.mem_range, Finset.mem_insert, Finset.mem_Ico] at hk ⊢
      omega
    exact Finset.card_le_card hsub
  · have hsub : (Finset.range ((l + 1 - f + 3) / 4)).filter (illegalGroup f l) ⊆
        Finset.Ico ((33 - f) / 4) ((l + 1 - f + 3) / 4) := by
      intro k hk
      simp only [Finset.mem_filter, Finset.mem_range, Finset.mem_Ico] at hk ⊢
      omega
    refine (Finset.card_le_card hsub).trans ?_
    rw [Nat.card_Ico]
    omega

theorem length_flatten_readDiags (f l n : Nat) :
    ((List.range n).map fun k => readDiags (f + 4 * k) (min (f + 4 * k + 3) l)).flatten.length =
      ((Finset.range n).filter (illegalGroup f l)).card := by
  induction n with
  | zero => rfl
  | succ n ih =>
    rw [List.range_succ, List.map_append, List.flatten_append, List.length_append, ih, Finset.range_add_one,
      Finset.filter_insert]
    by_cases h : legalRange (f + 4 * n) (min (f + 4 * n + 3) l)
    · rw [if_neg (not_not.2 h)]
      simp [readDiags_of_legal h]
    · rw [if_pos h, Finset.card_insert_of_notMem (by simp)]
      simp [readDiags_of_not_legal h]

/-- One diagnostic to each illegal group. -/
theorem length_getbcd_le {radix : Int} {f l : Nat} (hl : l < 64) {ds : List Diag}
    (h : diagsAllowed (.getbcd radix f l) ds) : ds.length ≤ 9 := by
  obtain rfl | ⟨groups, hlen, hgroups, rfl⟩ := h
  · decide
  have hmap : groups = (List.range groups.length).map fun k => readDiags (f + 4 * k) (min (f + 4 * k + 3) l) := by
    refine List.ext_getElem (by simp) fun k hk _ => ?_
    rw [← List.getD_eq_getElem groups [] hk, hgroups k hk]
    simp [readDiags]
  rw [hmap, length_flatten_readDiags, hlen]
  exact card_illegalGroup_le hl

theorem length_setbnr_le {v r : Ratio} {f l sb : Nat} {ds : List Diag} (h : diagsAllowed (.setbnr v r f l sb) ds) :
    ds.length ≤ 3 := by
  obtain rfl | ⟨warning, hwarning, rfl | ⟨magnitude, sign, hmagnitude, hsign, rfl⟩⟩ := h
  · decide
  · have := length_le_one_of_atMostOne hwarning
    simp only [List.length_append, List.length_singleton]
    omega
  · have := length_le_one_of_atMostOne hwarning
    have := length_le_one_of_atMostOne hmagnitude
    have := length_le_one_of_atMostOne hsign
    simp only [List.length_append]
    omega

theorem length_getbnr_le {r : Ratio} {f l sb : Nat} {ds : List Diag} (h : diagsAllowed (.getbnr r f l sb) ds) :
    ds.length ≤ 2 := by
  obtain rfl | ⟨magnitude, sign, hmagnitude, hsign, rfl⟩ := h
  · decide
  · rw [List.length_append]
    exact Nat.add_le_add (length_le_one_of_atMostOne hmagnitude) (length_le_one_of_atMostOne hsign)

/-- The table allows a command of a word no more diagnostics than R207 says. -/
theorem length_le_diagBound {i : Instr} (hwf : i.wf = true) {ds : List Diag} (h : diagsAllowed i ds) :
    ds.length ≤ diagBound i := by
  cases i with
  | setbnr v r f l sb => exact length_setbnr_le h
  | getbnr r f l sb => exact length_getbnr_le h
  | setbcd v radix f l =>
    have hl : l < 64 := by simp_all [Instr.wf, bitEncodable]
    have hlen := length_setbcd_le h
    show ds.length ≤ if legalRange f l then 9 else 17
    split <;> omega
  | getbcd radix f l =>
    have hl : l < 64 := by simp_all [Instr.wf, bitEncodable]
    exact length_getbcd_le hl h
  | getid | getsdi | getssm | getpar | clr | getword | getdsr | clrdsr =>
    obtain rfl : ds = [] := h
    exact Nat.zero_le 1
  | setraw | getraw | setid | setsdi | setssm | setpar | setbcdd | setdisc | getdisc | setdbit | getdbit =>
    exact length_le_one_of_atMostOne h

/-- Settles O23: whatever the table allows a command is within its bound. -/
theorem diagnosticCountIsBounded : Obligations.DiagnosticCountIsBounded := fun i s hwf =>
  answersAmong_mono (exec_among i s) fun _ h => length_le_diagBound hwf h

end Sys2Proof.Machine

/-! ## Reset (70_reset_and_hazards.md)

Both statements about a reset turn on its giving no response: with none on the port there is no diagnostic pulse (R230, R231).
The invariant holds at reset because nothing has been answered and no flag of `dsr` is set. -/

namespace Sys2Proof.Machine

/-! ### The outputs without a response -/

theorem rspValid_of_no_response {s : State} (h : s.rsp = none) : s.rspValid = false := by
  rw [State.rspValid, h, Option.isSome_none]

theorem diagPulses_of_no_response {s : State} (h : s.rsp = none) : s.diagPulses = [] := by
  rw [State.diagPulses, h]

/-! ### A reset request and the reset state -/

theorem step_reset {s : State} {rest : List HostInput} (h : s.inputs = .reset :: rest) :
    step s = .next (resetBlock (takeInput s rest)) := step_input h

/-- Settles O10: the step is `resetBlock` on the state from which the request has been taken. -/
theorem resetRequestGivesTheResetState : Obligations.ResetRequestGivesTheResetState := by
  intro s rest hs
  exact ⟨_, step_reset hs, resetBlock_raw _, resetBlock_dsr _, resetBlock_rsp _,
    diagPulses_of_no_response (resetBlock_rsp _), resetBlock_inputs _, resetBlock_responses _⟩

/-- Settles O11: the register ports show the registers; `cmd_ready` and `diag_code` are those of every state between
commands (R35, log entry 5). -/
theorem resetStateIsAllZero : Obligations.ResetStateIsAllZero :=
  ⟨reset_raw, reset_dsr, reset_raw, reset_dsr, rfl, rspValid_of_no_response reset_rsp,
    diagPulses_of_no_response reset_rsp, rfl⟩

/-- Settles O15: the trace is empty, the port shows no response, and no flag is set that would need a report. -/
theorem resetMeetsTheInvariant : Obligations.ResetMeetsTheInvariant := by
  refine ⟨?trace, ?port, ?flags⟩
  case trace => simp
  case port => simp
  case flags =>
    intro e hset
    have hclear : State.reset.dsr.getLsbD (dsrBitOf e) = false := (dsr_eq_zero_iff _).1 reset_dsr e
    exact absurd hset (Bool.eq_false_iff.1 hclear)

end Sys2Proof.Machine
